-- ==== Sys2Proof/Word.lean ====
section
/-! DEFINITION. The value types that the codec and the machine exchange, and the error kinds with the
information they carry (spec/00_scope.md R5 to R7, spec/60_exceptions.md R150). -/

namespace Sys2Proof

/-- An 8-bit byte of a word or of a program image (R6). -/
abbrev Byte := BitVec 8

/-- Field A of a word: the 4-bit operation selector (R51). -/
abbrev Opcode := BitVec 4

/-- The operand DECODE returns: the 20 bits `v[23:4]` (R13, R55). -/
abbrev Operand := BitVec 20

/-- A stack element or a memory cell: an unbounded integer (R5 `CELL`, D15). -/
abbrev Cell := Int

/-- The three bytes of a word in image order, byte 0 first (R6). -/
abbrev WordBytes := Byte × Byte × Byte

/-- The fixed set of instruction names, in the order the source lists them (R56, R101). -/
inductive OpName
  | loadConst
  | readValue
  | writeValue
  | sgn
deriving DecidableEq, Repr

/-- RangeError of ENCODE with its two information flags (R91, R151). -/
structure RangeError where
  /-- the requested opcode is outside `[0, 15]` -/
  badOpcode : Bool
  /-- the requested operand is outside `[0, 32767]` -/
  badOperand : Bool
deriving DecidableEq, Repr

/-- The two errors of DECODE with their information (R152, R153). -/
inductive CodecError
  /-- FormatError: the presented length is not 3; carries that length (R152). -/
  | format (length : Nat)
  /-- UnknownOpcodeError: field A is none of 4, 7, 11, 14; carries it (R153). -/
  | unknownOpcode (opcode : Opcode)
deriving DecidableEq, Repr

/-- The execution-stage errors (R150, R162): those that can end a run. -/
inductive RunError
  /-- FormatError or UnknownOpcodeError from the decode of slot `ip`. -/
  | codec (e : CodecError)
  /-- StackUnderflowError: `pop` or `peek` on the empty stack (R154). -/
  | stackUnderflow
  /-- AddressRangeError: `read` or `write` outside `[0, MEM_SIZE)`; carries the address (R155). -/
  | addressRange (addr : Int)
deriving DecidableEq, Repr

/-- The assembly-stage errors (R150, R164); the line is added by the Assembler (see `AsmReport`). -/
inductive AsmError
  /-- SyntaxError: a prepared line that does not split into exactly two tokens (R65). -/
  | tokenCount
  /-- SyntaxError: an argument token that is no base-10 integer; carries the token (R66). -/
  | badLiteral (token : List Char)
  /-- UnknownCommandError: carries the command name (R67, R157). -/
  | unknownCommand (command : List Char)
  /-- RangeError of ENCODE, at the encode phase (R68, R151). -/
  | range (e : RangeError)
deriving DecidableEq, Repr

/-- An assembly-stage error with the 1-based number of the source line it concerns (R150). -/
structure AsmReport where
  line : Nat
  error : AsmError
deriving DecidableEq, Repr

/-- The seven error kinds by name (R150). -/
inductive ErrorKind
  | rangeError
  | formatError
  | unknownOpcodeError
  | stackUnderflowError
  | addressRangeError
  | syntaxError
  | unknownCommandError
deriving DecidableEq, Repr

end Sys2Proof
end

