-- ==== Sys2Proof/Config.lean ====
section
/-! DEFINITION. The constants the block and its context are built with (spec/00_scope.md R5). No value is left
free: the spec leaves no result of an operation undefined. -/

namespace Sys2Proof.Config

/-- `OPC_MAX`: the largest opcode ENCODE accepts (R5, R90). -/
abbrev opcMax : Int := 15

/-- `OPD_MAX`: the largest operand ENCODE accepts (R5, R90). -/
abbrev opdMax : Int := 32767

/-- `REQ_W`: the default width of the two ENCODE request ports; the unit itself takes any width (R5, R12, D4). -/
abbrev reqW : Nat := 32

/-- `MEM_SIZE`: the default number of data-memory cells (R5, R25, D16). -/
abbrev defaultMemSize : Nat := 2048

end Sys2Proof.Config
end

