-- ==== Sys2Proof/Syntax.lean ====
section
/-! DEFINITION. The instructions as terms: one constructor per row of spec/opcode_table.json. The operand is the number
DECODE returns (`v >> 4`); for the twelve unrecognised opcodes it stands for bits 23 to 4 of the word, which nothing reads. -/

namespace Sys2Proof

/-- What a 3-byte word selects by its field A (R56): one of the four instructions with its operand, or one of the twelve
illegal words (R57; DESIGN CHOICE, log entry 4). -/
inductive Instr
  /-- `load_const b` (A = 14, R122). -/
  | loadConst (b : Nat)
  /-- `read_value b` (A = 11, R123). -/
  | readValue (b : Nat)
  /-- `write_value b` (A = 7, R124). -/
  | writeValue (b : Nat)
  /-- `sgn b` (A = 4, R125). -/
  | sgn (b : Nat)
  /-- a word with A = 0, which selects no instruction (R57). -/
  | unrecognised0 (bits : Nat)
  /-- a word with A = 1, which selects no instruction (R57). -/
  | unrecognised1 (bits : Nat)
  /-- a word with A = 2, which selects no instruction (R57). -/
  | unrecognised2 (bits : Nat)
  /-- a word with A = 3, which selects no instruction (R57). -/
  | unrecognised3 (bits : Nat)
  /-- a word with A = 5, which selects no instruction (R57). -/
  | unrecognised5 (bits : Nat)
  /-- a word with A = 6, which selects no instruction (R57). -/
  | unrecognised6 (bits : Nat)
  /-- a word with A = 8, which selects no instruction (R57). -/
  | unrecognised8 (bits : Nat)
  /-- a word with A = 9, which selects no instruction (R57). -/
  | unrecognised9 (bits : Nat)
  /-- a word with A = 10, which selects no instruction (R57). -/
  | unrecognised10 (bits : Nat)
  /-- a word with A = 12, which selects no instruction (R57). -/
  | unrecognised12 (bits : Nat)
  /-- a word with A = 13, which selects no instruction (R57). -/
  | unrecognised13 (bits : Nat)
  /-- a word with A = 15, which selects no instruction (R57). -/
  | unrecognised15 (bits : Nat)
deriving DecidableEq, Repr

end Sys2Proof
end

