-- ==== Sys2Proof/WellFormed.lean ====
section
/-! DEFINITION. Which instruction terms stand for a word: the operand fits the 20 bits above field A (spec R51, R55). The
stronger `Instr.canonical` says which words ENCODE produces for a recognised opcode (R58). -/

namespace Sys2Proof

/-- The number held in bits 23 to 4 of the word (R55). -/
def Instr.operand : Instr → Nat
  | .loadConst b => b
  | .readValue b => b
  | .writeValue b => b
  | .sgn b => b
  | .unrecognised0 b => b
  | .unrecognised1 b => b
  | .unrecognised2 b => b
  | .unrecognised3 b => b
  | .unrecognised5 b => b
  | .unrecognised6 b => b
  | .unrecognised8 b => b
  | .unrecognised9 b => b
  | .unrecognised10 b => b
  | .unrecognised12 b => b
  | .unrecognised13 b => b
  | .unrecognised15 b => b

/-- The name of the instruction a word selects, none for the twelve illegal words (R56, R57). -/
def Instr.name : Instr → Option OpName
  | .loadConst _ => some .loadConst
  | .readValue _ => some .readValue
  | .writeValue _ => some .writeValue
  | .sgn _ => some .sgn
  | .unrecognised0 _ => none
  | .unrecognised1 _ => none
  | .unrecognised2 _ => none
  | .unrecognised3 _ => none
  | .unrecognised5 _ => none
  | .unrecognised6 _ => none
  | .unrecognised8 _ => none
  | .unrecognised9 _ => none
  | .unrecognised10 _ => none
  | .unrecognised12 _ => none
  | .unrecognised13 _ => none
  | .unrecognised15 _ => none

/-- The term stands for a word: its operand is in `[0, 1048575]` (R55). -/
abbrev Instr.WellFormed (i : Instr) : Prop := i.operand < 1048576

/-- The word is canonical: field A is recognised and field H is zero (R58). -/
abbrev Instr.Canonical (i : Instr) : Prop := i.name.isSome = true ∧ i.operand ≤ 32767

end Sys2Proof
end

