-- ==== Sys2Proof/Decode.lean ====
section
/-! DEFINITION. The codec's two operations ENCODE and DECODE on integers and bytes (spec/40_codec_operations.md), the
name and opcode lookup, and the decoder and encoder of instruction terms built from the same field positions
(spec/30_encoding.md R51 to R56). -/

namespace Sys2Proof

/-! ## Names and opcodes (R56, R101) -/

/-- OPCODE_OF: "load_const=14, read_value=11, write_value=7, sgn=4" (R56, R101). -/
def opcodeOf : OpName → Opcode
  | .loadConst => 14
  | .readValue => 11
  | .writeValue => 7
  | .sgn => 4

/-- NAME_OF: the inverse lookup; none for the twelve unrecognised opcodes (R101). -/
def nameOf (opcode : Opcode) : Option OpName :=
  if opcode = 14 then some .loadConst
  else if opcode = 11 then some .readValue
  else if opcode = 7 then some .writeValue
  else if opcode = 4 then some .sgn
  else none

/-! ## The word and its bytes (R6, R34, R51 to R53) -/

/-- The value `v` of a 3-byte slot: byte 0 is least significant (R53). -/
def littleEndian (b0 b1 b2 : Byte) : Nat := b0.toNat + 256 * b1.toNat + 65536 * b2.toNat

/-- Byte `k` of the value `v`, the bits `8k+7 : 8k` (R6, D13). -/
def byteOf (v k : Nat) : Byte := BitVec.ofNat 8 (v >>> (8 * k))

/-- The three bytes of `v` in image order (R34). -/
def wordBytes (v : Nat) : WordBytes := (byteOf v 0, byteOf v 1, byteOf v 2)

/-- Field A of `v`: `v & 0xF` (R51). -/
def fieldA (v : Nat) : Nat := v &&& 0xF

/-- The operand of `v`: `v >> 4`, fields H and B together, unmasked (R55, R96). -/
def fieldHB (v : Nat) : Nat := v >>> 4

/-- The word with a given opcode and operand: `opcode | (operand << 4)` (R54, R90). -/
def wordOf (opcode operand : Nat) : Nat := opcode ||| (operand <<< 4)

/-! ## ENCODE and DECODE (R90, R94) -/

/-- ENCODE (R90, R91): both range tests are made on every request; no byte is produced when one fails. -/
def Codec.encode (opcode operand : Int) : Except RangeError WordBytes :=
  let badOpcode := decide (opcode < 0 ∨ opcode > Config.opcMax)
  let badOperand := decide (operand < 0 ∨ operand > Config.opdMax)
  if badOpcode || badOperand then .error ⟨badOpcode, badOperand⟩
  else .ok (wordBytes (wordOf opcode.toNat operand.toNat))

/-- DECODE (R94, R95): the length is tested first, then field A; the operand is neither masked nor range-checked (R96). -/
def Codec.decode : List Byte → Except CodecError (Opcode × Operand)
  | [b0, b1, b2] =>
    let v := littleEndian b0 b1 b2
    let opcode : Opcode := BitVec.ofNat 4 (fieldA v)
    match nameOf opcode with
    | none => .error (.unknownOpcode opcode)
    | some _ => .ok (opcode, BitVec.ofNat 20 (fieldHB v))
  | s => .error (.format s.length)

/-! ## Instruction terms (R56, R57, R105) -/

/-- The opcode map of R56: all sixteen values of field A. -/
def instrOf (opcode : Opcode) (b : Nat) : Instr :=
  match opcode.toFin with
  | 0 => .unrecognised0 b
  | 1 => .unrecognised1 b
  | 2 => .unrecognised2 b
  | 3 => .unrecognised3 b
  | 4 => .sgn b
  | 5 => .unrecognised5 b
  | 6 => .unrecognised6 b
  | 7 => .writeValue b
  | 8 => .unrecognised8 b
  | 9 => .unrecognised9 b
  | 10 => .unrecognised10 b
  | 11 => .readValue b
  | 12 => .unrecognised12 b
  | 13 => .unrecognised13 b
  | 14 => .loadConst b
  | 15 => .unrecognised15 b
  | ⟨n + 16, h⟩ => absurd h (by omega)

/-- What a slot holds: FormatError for a length other than 3, and the row of the opcode map for a 3-byte word. The twelve
illegal rows are terms here (the opcode table lists them); their UnknownOpcodeError is their meaning (R57, R105). -/
def decode : List Byte → Except CodecError Instr
  | [b0, b1, b2] =>
    let v := littleEndian b0 b1 b2
    .ok (instrOf (BitVec.ofNat 4 (fieldA v)) (fieldHB v))
  | s => .error (.format s.length)

/-- Field A of the word a term stands for (R56). -/
def Instr.opcode : Instr → Nat
  | .loadConst _ => 14
  | .readValue _ => 11
  | .writeValue _ => 7
  | .sgn _ => 4
  | .unrecognised0 _ => 0
  | .unrecognised1 _ => 1
  | .unrecognised2 _ => 2
  | .unrecognised3 _ => 3
  | .unrecognised5 _ => 5
  | .unrecognised6 _ => 6
  | .unrecognised8 _ => 8
  | .unrecognised9 _ => 9
  | .unrecognised10 _ => 10
  | .unrecognised12 _ => 12
  | .unrecognised13 _ => 13
  | .unrecognised15 _ => 15

/-- The instruction with a given name and operand (R101). -/
def instrNamed (name : OpName) (b : Nat) : Instr :=
  match name with
  | .loadConst => .loadConst b
  | .readValue => .readValue b
  | .writeValue => .writeValue b
  | .sgn => .sgn b

/-- The three bytes of a well-formed term, in image order (R51, R52). -/
def encode (i : Instr) : List Byte :=
  let v := wordOf i.opcode i.operand
  [byteOf v 0, byteOf v 1, byteOf v 2]

/-- The instruction read from a word numbered as the opcode table numbers it: bit 0 is bit 0 of byte 0, the bits above
`nbits` are zero. No instruction is longer than 24 bits (R50). -/
def decodeTableWord (nbits w : Nat) : Option Instr :=
  if nbits ≤ 24 then
    let v := w % 2 ^ nbits
    match decode [byteOf v 0, byteOf v 1, byteOf v 2] with
    | .ok i => some i
    | .error _ => none
  else none

end Sys2Proof
end

