-- ==== Sys2Proof/Machine/State.lean ====
section
/-! DEFINITION. The state of the AIv14 machine (spec/10_state.md section 3), the reasons a step can stop, and the state
right after reset (R25). Everything is plain data. -/

namespace Sys2Proof.Machine

/-- Data memory (R18, R33): (address, value) pairs with addresses strictly rising; a cell that is not listed reads 0, the
initial value of every cell (R25), and no listed value is 0. -/
abbrev Memory := List (Nat × Cell)

/-- The termination status of a run (R19, R130). -/
inductive Status
  /-- not yet halted -/
  | running
  /-- `ip` reached the end of the program -/
  | completed
  /-- decode or execution failure -/
  | haltedError
deriving DecidableEq, Repr

/-- The error record of a run: the error and the `ip` at which it arose (R19, R162). -/
structure ErrorReport where
  error : RunError
  ip : Nat
deriving DecidableEq, Repr

/-- An entry of the trace (R134). -/
inductive TraceEntry
  /-- a step entry: `ip`, the operation name, the operand, and the stack before execution -/
  | step (ip : Nat) (name : OpName) (operand : Nat) (stack : List Cell)
  /-- an error entry: the `ip` and the error -/
  | error (ip : Nat) (e : RunError)
deriving DecidableEq, Repr

/-- The machine's state (R15, R19) with the two parameters of its run (R5, R24). -/
structure State where
  /-- index of the next instruction slot, in whole instructions (R16) -/
  ip : Nat
  /-- the operand stack, top first (R17; DESIGN CHOICE, log entry 20) -/
  stack : List Cell
  /-- the data memory (R18) -/
  mem : Memory
  /-- the termination status (R19) -/
  status : Status
  /-- the error record, absent unless the run halted on an error (R19) -/
  error : Option ErrorReport
  /-- the trace, oldest entry first (R134) -/
  trace : List TraceEntry
  /-- run parameter: the program image, which no instruction can write (R24, R45); held here by DESIGN CHOICE, log entry 3 -/
  image : List Byte
  /-- run parameter `MEM_SIZE`, fixed for the run (R5, R18) -/
  memSize : Nat
deriving DecidableEq, Repr

/-- Why a step cannot be taken. The execution-stage errors of the spec are not here: they are next states (R162). -/
inductive Fault
  /-- Raised by `step` alone (DEDUCED, log entry 2), in a state whose run is COMPLETED or HALTED_ERROR: "Both are final: nothing executes after
  either" (R130). Safe: the machine has no step there. -/
  | runOver
deriving DecidableEq, Repr

/-- Why an instruction has no meaning in this model. -/
inductive Refusal
  /-- Raised by an arm of `exec` for an instruction that is not modelled. No arm does: every row of the opcode table has its
  meaning. Safe: nothing is claimed of a refused instruction. -/
  | notModelled (mnemonic : String)
deriving DecidableEq, Repr

/-- The outcome of one instruction or of one step. -/
abbrev Result := Host.Outcome State Fault Refusal

/-- The machine right after it is created, with the default memory size, nothing preset and the empty image
(R25, R181). -/
def State.reset : State :=
  { ip := 0
    stack := []
    mem := []
    status := .running
    error := none
    trace := []
    image := []
    memSize := Config.defaultMemSize }

end Sys2Proof.Machine
end

