-- ==== Sys2Proof/Machine/Flags.lean ====
section
/-! DEFINITION. The machine has no flags, condition codes or predicates (spec/10_state.md R20). The one computation that
takes a flag's place elsewhere, the sign of a value, is delivered on the stack (R125, R126). -/

namespace Sys2Proof.Machine

/-- The three-way sign of `sgn`, exact on every integer: 1, -1 or 0 (R125). -/
def signOf (v : Cell) : Cell := if v > 0 then 1 else if v < 0 then -1 else 0

end Sys2Proof.Machine
end

