-- ==== Sys2Proof/Machine/Ops.lean ====
section
/-! DEFINITION. The named operations over the machine's state: memory and stack primitives (spec/10_state.md R17,
spec/20_memory.md R39), fetch (R32, R47), the engine's bookkeeping around an instruction (spec/41_coded_instructions.md
R120), taking an error (spec/60_exceptions.md R162), and the start of a run (R120, R181). There is no return from an error
(R165), so none is defined. -/

namespace Sys2Proof.Machine

/-! ## Data memory (R33, R39) -/

/-- The value of a cell: 0 where nothing is listed (R25). -/
def Memory.read : Memory → Nat → Cell
  | [], _ => 0
  | (k, v) :: rest, a => if k = a then v else Memory.read rest a

/-- Store `v` into cell `a`, keeping the list canonical: storing 0 removes the entry. -/
def Memory.write : Memory → Nat → Cell → Memory
  | [], a, v => if v = 0 then [] else [(a, v)]
  | (k, w) :: rest, a, v =>
    if a < k then (if v = 0 then (k, w) :: rest else (a, v) :: (k, w) :: rest)
    else if a = k then (if v = 0 then rest else (a, v) :: rest)
    else (k, w) :: Memory.write rest a v

/-- The canonical form: addresses strictly rising, no value 0. -/
def Memory.wf : Memory → Bool
  | [] => true
  | [(_, v)] => decide (v ≠ 0)
  | (k, v) :: (k', v') :: rest => decide (v ≠ 0) && decide (k < k') && Memory.wf ((k', v') :: rest)

/-- Every listed cell lies in `[0, size)`. -/
def Memory.fits (size : Nat) (m : Memory) : Bool := m.all fun c => decide (c.1 < size)

/-- The memory that a list of presets (address, value) leaves, the last preset of a cell winning (R183). -/
def Memory.ofPresets (presets : List (Nat × Cell)) : Memory :=
  presets.foldl (fun m c => Memory.write m c.1 c.2) []

/-- `addr ∈ [0, MEM_SIZE)`: the only check on a data address (R39, R41). -/
def State.inRange (s : State) (addr : Int) : Bool := decide (0 ≤ addr ∧ addr < s.memSize)

/-- `read(addr)`, `MemRead(addr, 1)` (R8, R39). -/
def State.memRead (s : State) (addr : Int) : Except RunError Cell :=
  if s.inRange addr then .ok (Memory.read s.mem addr.toNat) else .error (.addressRange addr)

/-- `write(addr, v)`, `MemWrite(addr, 1, v)` (R8, R39). -/
def State.memWrite (s : State) (addr : Int) (v : Cell) : Except RunError State :=
  if s.inRange addr then .ok { s with mem := Memory.write s.mem addr.toNat v }
  else .error (.addressRange addr)

/-! ## Operand stack (R17) -/

/-- `push(v)`: never fails. -/
def State.push (s : State) (v : Cell) : State := { s with stack := v :: s.stack }

/-- `pop()`: the top value and the state without it, or StackUnderflowError. -/
def State.pop (s : State) : Except RunError (Cell × State) :=
  match s.stack with
  | [] => .error .stackUnderflow
  | v :: rest => .ok (v, { s with stack := rest })

/-- `peek()`: the top value, or StackUnderflowError; used by no instruction (R17). -/
def State.peek (s : State) : Except RunError Cell :=
  match s.stack with
  | [] => .error .stackUnderflow
  | v :: _ => .ok v

/-- `stack_depth()`. -/
def State.stackDepth (s : State) : Nat := s.stack.length

/-! ## Program image and fetch (R32, R36, R47) -/

/-- `ImgRead(off, n)`: the bytes of the image at `off`, at most `n`, fewer at its end (R8). -/
def imgRead (image : List Byte) (off n : Nat) : List Byte := (image.drop off).take n

/-- `instructions[i] = bytes[3i : 3i+3]` (R32). -/
def slot (image : List Byte) (i : Nat) : List Byte := imgRead image (3 * i) 3

/-- `instruction_count = ceil(len(image) / 3)` (R47, D14; log entry 10). -/
def instructionCount (image : List Byte) : Nat := (image.length + 2) / 3

/-- The bytes of the slot at `ip`. -/
def State.fetch (s : State) : List Byte := slot s.image s.ip

/-- The test of the loop's step 1: `ip >= instruction_count` (R120). -/
def State.atEnd (s : State) : Bool := decide (instructionCount s.image ≤ s.ip)

/-! ## The engine around an instruction (R120, R134) -/

/-- Step 3: record `ip`, the name, the operand and the stack before execution. -/
def State.recordStep (s : State) (name : OpName) (b : Nat) : State :=
  { s with trace := s.trace ++ [.step s.ip name b s.stack] }

/-- Step 5: `ip <- ip + 1`, the only assignment `ip` ever receives (R16, R127). -/
def State.advance (s : State) : State := { s with ip := s.ip + 1 }

/-- Taking an execution-stage error, halt in place (R162): status, error record and error entry are written; `ip`, stack and
memory stay as they are. -/
def State.raise (s : State) (e : RunError) : State :=
  { s with
    status := .haltedError
    error := some ⟨e, s.ip⟩
    trace := s.trace ++ [.error s.ip e] }

/-- Step 1 at the end of the program: the run is COMPLETED (R120, R188). -/
def State.complete (s : State) : State := { s with status := .completed }

/-- Steps 4 and 5 once the instruction's effect is known: an error is taken in the state `s` in which it arose; a new state
moves on to the next slot. -/
def settle (s : State) : Except RunError State → Result
  | .error e => .next (s.raise e)
  | .ok t => .next t.advance

/-! ## The start of a run (R120, R181, R183) -/

/-- RUN's first line: a fresh state for an image, a memory size and initial memory contents. -/
def State.start (image : List Byte) (memSize : Nat) (mem0 : Memory) : State :=
  { State.reset with image := image, memSize := memSize, mem := mem0 }

/-- The image with the three bytes of `v` in slot `i`; a shorter image is first extended to that slot by zero bytes. Used
by `State.withFetchWord` alone. -/
def placeWord (image : List Byte) (i v : Nat) : List Byte :=
  (image ++ List.replicate (3 * i - image.length) 0).take (3 * i)
    ++ [byteOf v 0, byteOf v 1, byteOf v 2] ++ image.drop (3 * i + 3)

end Sys2Proof.Machine
end

