-- ==== Sys2Proof/Machine/Operands.lean ====
section
/-! DEFINITION. The two operand forms (spec/30_encoding.md R62, spec/41_coded_instructions.md R128): an immediate constant,
and an absolute data-memory address. No operand is a register number, a stack index, a displacement or a target. -/

namespace Sys2Proof.Machine

/-- The immediate of `load_const`: the operand, zero-extended, never negative (R55, R122). -/
def immediate (b : Nat) : Cell := (b : Int)

/-- The effective address of `read_value`, `write_value` and `sgn`: `EA = b`, with no base, index or scaling (R128). -/
def effectiveAddress (b : Nat) : Int := (b : Int)

end Sys2Proof.Machine
end

