-- ==== Sys2Proof/Machine/Data.lean ====
section
/-! DEFINITION. The meanings of the four instructions (spec/41_coded_instructions.md section 2). Each is one pass through
steps 3 to 5 of the loop of R120: record the step entry, execute, advance or take the error. -/

namespace Sys2Proof.Machine

/-- `load_const b`: `push(b)` (R122). -/
def execLoadConst (b : Nat) (s : State) : Result :=
  let s := s.recordStep .loadConst b
  settle s (.ok (s.push (immediate b)))

/-- `read_value b`: `push(MemRead(b, 1))` (R123). -/
def execReadValue (b : Nat) (s : State) : Result :=
  let s := s.recordStep .readValue b
  settle s ((s.memRead (effectiveAddress b)).map s.push)

/-- `write_value b`: `v <- pop()`, then `MemWrite(b, 1, v)`; the pop is kept when the write fails (R124). -/
def execWriteValue (b : Nat) (s : State) : Result :=
  let s := s.recordStep .writeValue b
  match s.pop with
  | .error e => settle s (.error e)
  | .ok (v, popped) => settle popped (popped.memWrite (effectiveAddress b) v)

/-- `sgn b`: `v <- MemRead(b, 1)`, then push the sign of `v`; nothing is popped (R125). -/
def execSgn (b : Nat) (s : State) : Result :=
  let s := s.recordStep .sgn b
  settle s ((s.memRead (effectiveAddress b)).map fun v => s.push (signOf v))

end Sys2Proof.Machine
end

