-- ==== Sys2Proof/Machine/Unrecognised.lean ====
section
/-! DEFINITION. The meanings of the twelve words that select no instruction (spec/30_encoding.md R57): UnknownOpcodeError
with the opcode found, whatever the other bits hold (spec/60_exceptions.md R153). Decoding fails before the trace line, so no
step entry is recorded (R121). -/

namespace Sys2Proof.Machine

/-- The shared effect: the run halts in place with UnknownOpcodeError (R153, R162). -/
def rejectOpcode (opcode : Opcode) (s : State) : Result := .next (s.raise (.codec (.unknownOpcode opcode)))

/-- A word with A = 0 (R57). -/
def execUnrecognised0 (s : State) : Result := rejectOpcode 0 s

/-- A word with A = 1 (R57). -/
def execUnrecognised1 (s : State) : Result := rejectOpcode 1 s

/-- A word with A = 2 (R57). -/
def execUnrecognised2 (s : State) : Result := rejectOpcode 2 s

/-- A word with A = 3 (R57). -/
def execUnrecognised3 (s : State) : Result := rejectOpcode 3 s

/-- A word with A = 5 (R57). -/
def execUnrecognised5 (s : State) : Result := rejectOpcode 5 s

/-- A word with A = 6 (R57). -/
def execUnrecognised6 (s : State) : Result := rejectOpcode 6 s

/-- A word with A = 8 (R57). -/
def execUnrecognised8 (s : State) : Result := rejectOpcode 8 s

/-- A word with A = 9 (R57). -/
def execUnrecognised9 (s : State) : Result := rejectOpcode 9 s

/-- A word with A = 10 (R57). -/
def execUnrecognised10 (s : State) : Result := rejectOpcode 10 s

/-- A word with A = 12 (R57). -/
def execUnrecognised12 (s : State) : Result := rejectOpcode 12 s

/-- A word with A = 13 (R57). -/
def execUnrecognised13 (s : State) : Result := rejectOpcode 13 s

/-- A word with A = 15 (R57). -/
def execUnrecognised15 (s : State) : Result := rejectOpcode 15 s

end Sys2Proof.Machine
end

