-- ==== Sys2Proof/Machine/Dispatch.lean ====
section
/-! DEFINITION. The dispatch: one arm per constructor of `Instr`, each one direct call of its meaning. -/

namespace Sys2Proof.Machine

def exec (i : Instr) (s : State) : Host.Outcome State Fault Refusal :=
  match i with
  | .loadConst b => Sys2Proof.Machine.execLoadConst b s
  | .readValue b => Sys2Proof.Machine.execReadValue b s
  | .writeValue b => Sys2Proof.Machine.execWriteValue b s
  | .sgn b => Sys2Proof.Machine.execSgn b s
  | .unrecognised0 _ => Sys2Proof.Machine.execUnrecognised0 s
  | .unrecognised1 _ => Sys2Proof.Machine.execUnrecognised1 s
  | .unrecognised2 _ => Sys2Proof.Machine.execUnrecognised2 s
  | .unrecognised3 _ => Sys2Proof.Machine.execUnrecognised3 s
  | .unrecognised5 _ => Sys2Proof.Machine.execUnrecognised5 s
  | .unrecognised6 _ => Sys2Proof.Machine.execUnrecognised6 s
  | .unrecognised8 _ => Sys2Proof.Machine.execUnrecognised8 s
  | .unrecognised9 _ => Sys2Proof.Machine.execUnrecognised9 s
  | .unrecognised10 _ => Sys2Proof.Machine.execUnrecognised10 s
  | .unrecognised12 _ => Sys2Proof.Machine.execUnrecognised12 s
  | .unrecognised13 _ => Sys2Proof.Machine.execUnrecognised13 s
  | .unrecognised15 _ => Sys2Proof.Machine.execUnrecognised15 s

end Sys2Proof.Machine
end

