-- ==== Sys2Proof/Machine/Step.lean ====
section
/-! DEFINITION. One step is one pass of the loop of spec/41_coded_instructions.md R120: the test for the end of the program,
the fetch and decode of slot `ip`, and the execution of what it holds. -/

namespace Sys2Proof.Machine

/-- One pass of the loop (R120, R121; DEDUCED, log entry 1). A state whose run is over has no step (R130). -/
def step (s : State) : Host.Outcome State Fault Refusal :=
  match s.status with
  | .completed => .fault .runOver
  | .haltedError => .fault .runOver
  | .running =>
    if s.atEnd then .next s.complete
    else
      match decode s.fetch with
      | .error e => .next (s.raise (.codec e))
      | .ok i => exec i s

/-- `s` with the word `w` (its bits above `nbits` zero) in the slot the next step fetches, and a run that is not over, so that
the next step runs exactly that word. -/
def State.withFetchWord (s : State) (nbits w : Nat) : State :=
  { s with
    image := placeWord s.image s.ip (w % 2 ^ nbits)
    status := .running
    error := none }

end Sys2Proof.Machine
end

