-- ==== Sys2Proof/Machine/Errors.lean ====
section
/-! DEFINITION. The error kinds, their numeric codes and their stages (spec/60_exceptions.md R150, D5). -/

namespace Sys2Proof.Machine

/-- The kind of a DECODE error. -/
def codecErrorKind : CodecError → ErrorKind
  | .format _ => .formatError
  | .unknownOpcode _ => .unknownOpcodeError

/-- The kind of an execution-stage error. -/
def runErrorKind : RunError → ErrorKind
  | .codec e => codecErrorKind e
  | .stackUnderflow => .stackUnderflowError
  | .addressRange _ => .addressRangeError

/-- The kind of an assembly-stage error. -/
def asmErrorKind : AsmError → ErrorKind
  | .tokenCount => .syntaxError
  | .badLiteral _ => .syntaxError
  | .unknownCommand _ => .unknownCommandError
  | .range _ => .rangeError

/-- The numeric code of a kind; 0 is "none" (R150, D5). -/
def errorCode : ErrorKind → Nat
  | .rangeError => 1
  | .formatError => 2
  | .unknownOpcodeError => 3
  | .stackUnderflowError => 4
  | .addressRangeError => 5
  | .syntaxError => 6
  | .unknownCommandError => 7

/-- The kind belongs to the assembly stage; the others belong to the execution stage (R150, R164). -/
def isAssemblyStage : ErrorKind → Bool
  | .rangeError => true
  | .syntaxError => true
  | .unknownCommandError => true
  | .formatError => false
  | .unknownOpcodeError => false
  | .stackUnderflowError => false
  | .addressRangeError => false

end Sys2Proof.Machine
end

