-- ==== Sys2Proof/Machine/Codec.lean ====
section
/-! DEFINITION. The codec as hardware: the combinational units ENC and DEC with the ports of spec/10_state.md R12 and R13,
computed by the logic of spec/40_codec_operations.md R103. A data output that has no meaning after a failure is absent
(R166, D8). -/

namespace Sys2Proof.Machine

/-- The output ports of ENC (R12). -/
structure EncPorts where
  encOk : Bool
  encErr : BitVec 2
  encBadOpcode : Bool
  encBadOperand : Bool
  /-- valid only when `encOk` is 1, absent otherwise -/
  encBytes : Option WordBytes
deriving DecidableEq, Repr

/-- The output ports of DEC (R13). -/
structure DecPorts where
  decOk : Bool
  decErr : BitVec 2
  /-- field A: a result when `decOk` is 1, the offending opcode when `decErr` is 3, absent otherwise -/
  decOpcode : Option Opcode
  /-- valid only when `decOk` is 1, absent otherwise -/
  decOperand : Option Operand
  /-- valid only when `decOk` is 1, absent otherwise -/
  decName : Option (BitVec 2)
deriving DecidableEq, Repr

/-- The `dec_name` index of an instruction (R56, D3). -/
def nameIndex : OpName → BitVec 2
  | .loadConst => 0
  | .readValue => 1
  | .writeValue => 2
  | .sgn => 3

/-- Unit ENC for request ports of `w` bits, two's complement (R12, R103). -/
def encUnit {w : Nat} (encOpcode encOperand : BitVec w) : EncPorts :=
  let badOpcode := decide (encOpcode.toInt < 0) || decide (encOpcode.toInt > Config.opcMax)
  let badOperand := decide (encOperand.toInt < 0) || decide (encOperand.toInt > Config.opdMax)
  if badOpcode || badOperand then
    { encOk := false, encErr := 1, encBadOpcode := badOpcode, encBadOperand := badOperand, encBytes := none }
  else
    { encOk := true
      encErr := 0
      encBadOpcode := false
      encBadOperand := false
      encBytes := some
        (encOperand.extractLsb' 0 4 ++ encOpcode.extractLsb' 0 4,
         encOperand.extractLsb' 4 8,
         0#5 ++ encOperand.extractLsb' 12 3) }

/-- ENC at the default request width `REQ_W` = 32 (R5, R12). -/
def enc (encOpcode encOperand : BitVec Config.reqW) : EncPorts := encUnit encOpcode encOperand

/-- Unit DEC (R13, R103): the bytes are read only when `decLen` is 3. -/
def decUnit (decLen : Nat) (b0 b1 b2 : Byte) : DecPorts :=
  if decLen = 3 then
    let opcode : Opcode := b0.extractLsb' 0 4
    match nameOf opcode with
    | some n =>
      { decOk := true
        decErr := 0
        decOpcode := some opcode
        decOperand := some (b2 ++ b1 ++ b0.extractLsb' 4 4)
        decName := some (nameIndex n) }
    | none => { decOk := false, decErr := 3, decOpcode := some opcode, decOperand := none, decName := none }
  else { decOk := false, decErr := 2, decOpcode := none, decOperand := none, decName := none }

/-- Three bytes seen as one 24-bit bus: byte `k` is bits `8k+7 : 8k` (R12, D13). -/
def bus (w : WordBytes) : BitVec 24 := w.2.2 ++ w.2.1 ++ w.1

end Sys2Proof.Machine
end

