-- ==== Sys2Proof/Machine/Utf8.lean ====
section
/-! DEFINITION. Source text is UTF-8 text (spec/30_encoding.md R63): the characters that a sequence of bytes stands for, and
the bytes of a character. The spec names UTF-8 and does not describe it; its layout (1 to 4 bytes, shortest form only, no
surrogates) is PRESUMED, log entry 13. -/

namespace Sys2Proof.Machine

/-- The bytes of one character, first byte first (R63). -/
def utf8Char (c : Char) : List Byte :=
  let n := c.toNat
  let following (m : Nat) : Byte := BitVec.ofNat 8 (0x80 + m % 64)
  if n < 0x80 then [BitVec.ofNat 8 n]
  else if n < 0x800 then [BitVec.ofNat 8 (0xC0 + n / 64), following n]
  else if n < 0x10000 then [BitVec.ofNat 8 (0xE0 + n / 4096), following (n / 64), following n]
  else [BitVec.ofNat 8 (0xF0 + n / 262144), following (n / 4096), following (n / 64), following n]

/-- The bytes of a text (R63). -/
def encodeUtf8 (text : List Char) : List Byte := text.flatMap utf8Char

/-- The character with code `n`; none for a surrogate, a number beyond the last code, or a code below `least`, which has a
shorter form. -/
def utf8Scalar (least n : Nat) : Option Char := if least ≤ n ∧ n.isValidChar then some (Char.ofNat n) else none

/-- A character before the characters of the rest, where both exist. -/
def beforeRest (c : Option Char) (rest : Option (List Char)) : Option (List Char) :=
  match c with
  | none => none
  | some c => rest.map fun cs => c :: cs

/-- Reads bytes of which the first `pending` end a character already begun: `value` is what its bytes so far contribute, and
its code is at least `least`. -/
def readUtf8 (pending value least : Nat) : List Byte → Option (List Char)
  | [] => if pending = 0 then some [] else none
  | b :: rest =>
    match pending with
    | 0 =>
      if b.toNat < 0x80 then beforeRest (utf8Scalar 0 b.toNat) (readUtf8 0 0 0 rest)
      else if b.toNat / 32 = 6 then readUtf8 1 (b.toNat % 32) 0x80 rest
      else if b.toNat / 16 = 14 then readUtf8 2 (b.toNat % 16) 0x800 rest
      else if b.toNat / 8 = 30 then readUtf8 3 (b.toNat % 8) 0x10000 rest
      else none
    | more + 1 =>
      if b.toNat / 64 = 2 then
        match more with
        | 0 => beforeRest (utf8Scalar least (64 * value + b.toNat % 64)) (readUtf8 0 0 0 rest)
        | _ + 1 => readUtf8 more (64 * value + b.toNat % 64) least rest
      else none

/-- The text a sequence of bytes stands for; none where the bytes are not UTF-8 (R63). -/
def decodeUtf8 (bytes : List Byte) : Option (List Char) := readUtf8 0 0 0 bytes

end Sys2Proof.Machine
end

