-- ==== Sys2Proof/Machine/Assembler.lean ====
section
/-! DEFINITION. The Assembler (spec/30_encoding.md section 6): source text to program image and instruction list, in two
phases, and the disassembly spelling. A text is its sequence of characters, a source the bytes of one (R63). -/

namespace Sys2Proof.Machine

/-! ## Lines and tokens (R63 to R65, R72) -/

/-- Whitespace: space, horizontal tab, carriage return (R72, D18). -/
def isBlank (c : Char) : Bool := c == ' ' || c == '\t' || c == '\r'

/-- The lines of a text: each ends at a line feed, which is not part of it; what follows the last line feed is a line unless
it is empty (R72). -/
def splitLines : List Char → List (List Char)
  | [] => []
  | c :: rest =>
    if c = '\n' then [] :: splitLines rest
    else
      match splitLines rest with
      | [] => [[c]]
      | line :: lines => (c :: line) :: lines

/-- The text without leading and trailing whitespace (R64). -/
def trim (line : List Char) : List Char := ((line.dropWhile isBlank).reverse.dropWhile isBlank).reverse

/-- The prepared line: the comment from the first `#` onward is stripped, then whitespace is trimmed (R64). -/
def prepare (line : List Char) : List Char := trim (line.takeWhile fun c => c != '#')

/-- The maximal runs of characters that are not whitespace (R65, R72). -/
def tokens : List Char → List (List Char)
  | [] => []
  | c :: rest =>
    if isBlank c then tokens rest
    else
      match rest with
      | [] => [[c]]
      | d :: _ =>
        if isBlank d then [c] :: tokens rest
        else
          match tokens rest with
          | [] => [[c]]
          | t :: ts => (c :: t) :: ts

/-! ## Integer literals and command names (R66, R67) -/

/-- An ASCII digit `0` .. `9` (R66). -/
def isDecimalDigit (c : Char) : Bool := decide ('0'.toNat ≤ c.toNat) && decide (c.toNat ≤ '9'.toNat)

/-- The value of a digit. -/
def digitValue (c : Char) : Nat := c.toNat - '0'.toNat

/-- One or more ASCII digits, read in base 10; leading zeros are allowed (R66). -/
def parseDigits (ds : List Char) : Option Nat :=
  if !ds.isEmpty && ds.all isDecimalDigit then some (ds.foldl (fun n c => 10 * n + digitValue c) 0)
  else none

/-- An optional single sign followed by digits, nothing else (R66, D17). -/
def parseLiteral : List Char → Option Int
  | '-' :: ds => (parseDigits ds).map fun (n : Nat) => -(n : Int)
  | '+' :: ds => (parseDigits ds).map fun (n : Nat) => (n : Int)
  | ds => (parseDigits ds).map fun (n : Nat) => (n : Int)

/-- The source spelling of a name (R56, R63). -/
def spelling : OpName → List Char
  | .loadConst => ['l', 'o', 'a', 'd', '_', 'c', 'o', 'n', 's', 't']
  | .readValue => ['r', 'e', 'a', 'd', '_', 'v', 'a', 'l', 'u', 'e']
  | .writeValue => ['w', 'r', 'i', 't', 'e', '_', 'v', 'a', 'l', 'u', 'e']
  | .sgn => ['s', 'g', 'n']

/-- Command lookup: one of the four names, compared exactly (R67, D19). -/
def lookupCommand (command : List Char) : Option OpName :=
  if command = spelling .loadConst then some .loadConst
  else if command = spelling .readValue then some .readValue
  else if command = spelling .writeValue then some .writeValue
  else if command = spelling .sgn then some .sgn
  else none

/-! ## The parse phase (R64 to R68, R73) -/

/-- An element of the intermediate instruction list, with the source line it came from; the operand is not validated yet
(R68, R69). -/
structure SourceInstr where
  line : Nat
  name : OpName
  operand : Int
deriving DecidableEq, Repr

/-- One line: skipped when blank; else the checks in the order token count, literal, command name (R64, R73). -/
def parseLine (lineNumber : Nat) (line : List Char) : Except AsmReport (Option SourceInstr) :=
  let prepared := prepare line
  if prepared.isEmpty then .ok none
  else
    match tokens prepared with
    | [command, argument] =>
      match parseLiteral argument with
      | none => .error ⟨lineNumber, .badLiteral argument⟩
      | some operand =>
        match lookupCommand command with
        | none => .error ⟨lineNumber, .unknownCommand command⟩
        | some name => .ok (some ⟨lineNumber, name, operand⟩)
    | _ => .error ⟨lineNumber, .tokenCount⟩

/-- The lines in source order, numbered from `lineNumber`; the first failing line aborts the parse (R64, R73). -/
def parseLines : Nat → List (List Char) → Except AsmReport (List SourceInstr)
  | _, [] => .ok []
  | lineNumber, line :: lines =>
    match parseLine lineNumber line with
    | .error e => .error e
    | .ok none => parseLines (lineNumber + 1) lines
    | .ok (some i) => (parseLines (lineNumber + 1) lines).map fun is => i :: is

/-- The parse phase over the whole text; line numbers are 1-based (R64, R68). -/
def parseText (text : List Char) : Except AsmReport (List SourceInstr) := parseLines 1 (splitLines text)

/-! ## The encode phase and the whole assembly (R68 to R70, R104) -/

/-- ENCODE of one element of the list, its RangeError reported with the element's line (R104, R150). -/
def encodeSource (i : SourceInstr) : Except AsmReport (List Byte) :=
  match Codec.encode (opcodeOf i.name).toNat i.operand with
  | .error e => .error ⟨i.line, .range e⟩
  | .ok (b0, b1, b2) => .ok [b0, b1, b2]

/-- The encode phase: the concatenation of the encodings in list order, or the first RangeError (R68, R69). -/
def encodeSources : List SourceInstr → Except AsmReport (List Byte)
  | [] => .ok []
  | i :: is =>
    match encodeSource i with
    | .error e => .error e
    | .ok bytes => (encodeSources is).map fun image => bytes ++ image

/-- `assemble(source_text) -> (binary_image, instruction_list)`: all of the text is parsed before anything is encoded, and an
error leaves neither image nor list (R68 to R70). -/
def assemble (text : List Char) : Except AsmReport (List Byte × List (OpName × Int)) :=
  match parseText text with
  | .error e => .error e
  | .ok is => (encodeSources is).map fun image => (image, is.map fun i => (i.name, i.operand))

/-- The assembly of a source given as bytes: "UTF-8 text" (R63). The spec names no error for bytes that are not UTF-8 text: they
have no assembly (DESIGN CHOICE, log entry 13). -/
def assembleBytes (source : List Byte) : Option (Except AsmReport (List Byte × List (OpName × Int))) :=
  (decodeUtf8 source).map assemble

/-! ## Disassembly spelling (R74) -/

/-- `<name> <operand>`, the operand in decimal (R74). -/
def disassembleNamed (name : OpName) (operand : Nat) : List Char := spelling name ++ ' ' :: Nat.toDigits 10 operand

/-- The spelling of a decoded instruction; an illegal word has none (R57, R74). -/
def disassemble (i : Instr) : Option (List Char) := i.name.map fun n => disassembleNamed n i.operand

end Sys2Proof.Machine
end

