-- ==== Sys2Proof/Machine/Run.lean ====
section
/-! DEFINITION. A whole run (spec/41_coded_instructions.md R120): steps until the run is over. No fuel is needed beyond the
number of slots (R131). -/

namespace Sys2Proof.Machine

/-- At most `k` passes of the loop; a state whose run is over stays as it is. -/
def runFor : Nat → State → State
  | 0, s => s
  | k + 1, s =>
    match step s with
    | .next t => runFor k t
    | .fault _ => s
    | .refused _ => s

/-- RUN(image, MEM_SIZE, mem0): one pass for each slot, and the pass that finds the end of the program (R120, R131). -/
def run (image : List Byte) (memSize : Nat) (mem0 : Memory) : State :=
  runFor (instructionCount image + 1) (State.start image memSize mem0)

end Sys2Proof.Machine
end

