-- ==== Sys2Proof/Safety.lean ====
section
/-! DEFINITION. What claims call a safe run, and the properties of states that every step keeps (spec/10_state.md R16, R19;
spec/41_coded_instructions.md R130 to R134). -/

namespace Sys2Proof.Machine

/-- The state is that of a run without an error so far. -/
def State.Safe (s : State) : Prop := s.status ≠ .haltedError

/-- A program pops no more than it has pushed before: among its first `k` instructions at most half are `write_value`, the one
instruction that pops; the others push one value each (R17, R185). -/
def KeepsStackDiscipline (program : List (OpName × Nat)) : Prop :=
  ∀ k, k ≤ program.length → 2 * (program.take k).countP (fun p => p.1 == .writeValue) ≤ k

/-- The memory is canonical and names only cells that exist (R18). -/
def State.MemoryOk (s : State) : Prop := Memory.wf s.mem = true ∧ Memory.fits s.memSize s.mem = true

/-- `ip` against the status: within `[0, instruction_count]`, at its end when COMPLETED, before it when HALTED_ERROR (R16, R130). -/
def State.IpOk (s : State) : Prop :=
  s.ip ≤ instructionCount s.image ∧
  (s.status = .completed → s.ip = instructionCount s.image) ∧
  (s.status = .haltedError → s.ip < instructionCount s.image)

/-- The error record is present exactly in HALTED_ERROR, and names the current `ip` (R19, R162). -/
def State.ErrorOk (s : State) : Prop :=
  (s.status = .haltedError → ∃ e, s.error = some ⟨e, s.ip⟩) ∧ (s.status ≠ .haltedError → s.error = none)

/-- The stack is no deeper than the number of completed instructions (R132). -/
def State.DepthOk (s : State) : Prop := s.stackDepth ≤ s.ip

/-- The `ip` of a step entry; none for an error entry. -/
def TraceEntry.stepIp : TraceEntry → Option Nat
  | .step ip _ _ _ => some ip
  | .error _ _ => none

/-- The entries are step entries for slots `0 .. k-1`, in `ip` order (R134). -/
def stepEntriesTo (k : Nat) (entries : List TraceEntry) : Prop :=
  entries.map TraceEntry.stepIp = (List.range k).map some

/-- The trace against `ip` and the status (R134): one step entry for each completed instruction; in HALTED_ERROR the error
entry stands last, after the failing instruction's own step entry if that instruction was decoded (R121). -/
def State.TraceOk (s : State) : Prop :=
  (s.status ≠ .haltedError → stepEntriesTo s.ip s.trace) ∧
  (s.status = .haltedError → ∃ before e, s.trace = before ++ [.error s.ip e] ∧ s.error = some ⟨e, s.ip⟩ ∧
    (match e with
      | .codec _ => stepEntriesTo s.ip before
      | _ => stepEntriesTo (s.ip + 1) before))

/-- What holds of every state of a run. -/
structure State.Inv (s : State) : Prop where
  memory : s.MemoryOk
  ip : s.IpOk
  error : s.ErrorOk
  depth : s.DepthOk
  trace : s.TraceOk

/-- A value that a run from all-zero memory can hold: -1, or an operand of a word (R133). -/
def reachableValue (v : Cell) : Prop := -1 ≤ v ∧ v ≤ 1048575

/-- Every stack element and every memory cell holds such a value (R133). -/
def State.ValuesOk (s : State) : Prop :=
  (∀ v ∈ s.stack, reachableValue v) ∧ (∀ c ∈ s.mem, reachableValue c.2)

end Sys2Proof.Machine
end

