-- ==== Sys2Proof/Certificates/Slice0/Obligations.lean ====
section
/-! DEFINITION. The statements for the provers. Each docstring names the rule of spec/ it formalises, or says what it rests
on. `A`, `B` and `H` are the fields of a word (R51). -/

open Sys2Proof Sys2Proof.Machine

/-! ## The codec -/

/-- R90, R91: ENCODE of a request in range gives the three little-endian bytes of `opcode | (operand << 4)`, which is
`opcode + 16 * operand`; any other request is a RangeError whose flags say which argument is out of range. -/
def Obligations.EncodeGivesWordOrRangeError : Prop :=
  ∀ opcode operand : Int,
    (0 ≤ opcode ∧ opcode ≤ 15 → 0 ≤ operand ∧ operand ≤ 32767 →
      ∃ b0 b1 b2, Codec.encode opcode operand = .ok (b0, b1, b2) ∧
        littleEndian b0 b1 b2 = opcode.toNat ||| (operand.toNat <<< 4) ∧
        (littleEndian b0 b1 b2 : Int) = opcode + 16 * operand ∧
        littleEndian b0 b1 b2 ≤ 0x07FFFF) ∧
    (¬(0 ≤ opcode ∧ opcode ≤ 15) ∨ ¬(0 ≤ operand ∧ operand ≤ 32767) →
      ∃ badOpcode badOperand, Codec.encode opcode operand = .error ⟨badOpcode, badOperand⟩ ∧
        (badOpcode = true ↔ opcode < 0 ∨ 15 < opcode) ∧ (badOperand = true ↔ operand < 0 ∨ 32767 < operand))

/-- R93: every word ENCODE produces has H = 0, that is byte 2 at most 7. -/
def Obligations.EncodedWordHasZeroH : Prop :=
  ∀ (opcode operand : Int) (b0 b1 b2 : Byte), Codec.encode opcode operand = .ok (b0, b1, b2) →
    b2.toNat ≤ 7 ∧ littleEndian b0 b1 b2 / 2 ^ 19 = 0 ∧ littleEndian b0 b1 b2 ≤ 0x07FFFF

/-- R52: the word with fields A, B and H byte by byte, and byte 2 of an encoded word. -/
def Obligations.WordFieldsByteByByte : Prop :=
  (∀ a b h : Nat, a < 16 → b < 32768 → h < 32 →
    (byteOf (a + 16 * b + 2 ^ 19 * h) 0).toNat = a + 16 * (b % 16) ∧
    (byteOf (a + 16 * b + 2 ^ 19 * h) 1).toNat = b / 16 % 256 ∧
    (byteOf (a + 16 * b + 2 ^ 19 * h) 2).toNat = b / 4096 + 8 * h) ∧
  (∀ (opcode operand : Int) (b0 b1 b2 : Byte), Codec.encode opcode operand = .ok (b0, b1, b2) →
    (b0.toNat : Int) = opcode + 16 * (operand % 16) ∧ (b1.toNat : Int) = operand / 16 % 256 ∧
      (b2.toNat : Int) = operand / 4096 ∧ b2.toNat ≤ 7)

/-- R94, R95: DECODE tests the length first, then field A; where both pass it returns the low four bits and the other
twenty bits of the little-endian value. -/
def Obligations.DecodeSplitsWordOrFails : Prop :=
  (∀ s : List Byte, s.length ≠ 3 → Codec.decode s = .error (.format s.length)) ∧
  (∀ b0 b1 b2 : Byte,
    (b0.toNat % 16 ∈ [4, 7, 11, 14] →
      ∃ opcode operand, Codec.decode [b0, b1, b2] = .ok (opcode, operand) ∧
        opcode.toNat = littleEndian b0 b1 b2 % 16 ∧ opcode.toNat = b0.toNat % 16 ∧
        operand.toNat = littleEndian b0 b1 b2 / 16 ∧
        operand.toNat = b0.toNat / 16 + 16 * b1.toNat + 4096 * b2.toNat) ∧
    (b0.toNat % 16 ∉ [4, 7, 11, 14] →
      ∃ opcode : Opcode, opcode.toNat = b0.toNat % 16 ∧
        Codec.decode [b0, b1, b2] = .error (.unknownOpcode opcode)))

/-- Rests on R55 and R96: the decoded operand is `H * 32768 + B`, zero-extended, unmasked; it exceeds 32767 exactly when H is not zero,
and no value of it makes DECODE fail. That there is neither a mask nor a check is the spec's own decision D10 on its conflict
C1, as R96 marks it (log entry 9). -/
def Obligations.DecodedOperandIsUnmasked : Prop :=
  (∀ (b0 b1 b2 : Byte) (opcode : Opcode) (operand : Operand), Codec.decode [b0, b1, b2] = .ok (opcode, operand) →
    operand.toNat = littleEndian b0 b1 b2 / 2 ^ 19 * 32768 + littleEndian b0 b1 b2 / 16 % 32768 ∧
    operand.toNat ≤ 1048575 ∧ (32767 < operand.toNat ↔ littleEndian b0 b1 b2 / 2 ^ 19 ≠ 0)) ∧
  (∀ b0 b1 b2 : Byte, (∃ p, Codec.decode [b0, b1, b2] = .ok p) ↔ littleEndian b0 b1 b2 % 16 ∈ [4, 7, 11, 14])

/-- R97: DECODE is total, and how many of the three-byte inputs decode. -/
def Obligations.DecodeIsTotalWithCounts : Prop :=
  (∀ s : List Byte,
    (∃ p, Codec.decode s = .ok p) ∨ (∃ n, Codec.decode s = .error (.format n)) ∨
      (∃ opcode, Codec.decode s = .error (.unknownOpcode opcode))) ∧
  Set.ncard {w : WordBytes | ∃ p, Codec.decode [w.1, w.2.1, w.2.2] = .ok p} = 4194304 ∧
  Set.ncard {w : WordBytes | ∃ opcode, Codec.decode [w.1, w.2.1, w.2.2] = .error (.unknownOpcode opcode)} = 12582912

/-- R61: the census of the 16777216 words by class, what DECODE gives in each, and the image of ENCODE. -/
def Obligations.CensusOfWords : Prop :=
  let recognised : WordBytes → Prop := fun w => w.1.toNat % 16 ∈ [4, 7, 11, 14]
  let value : WordBytes → Nat := fun w => littleEndian w.1 w.2.1 w.2.2
  let zeroH : WordBytes → Prop := fun w => value w / 2 ^ 19 = 0
  Set.ncard {w | recognised w ∧ zeroH w} = 131072 ∧
  Set.ncard {w | recognised w ∧ ¬zeroH w} = 4063232 ∧
  Set.ncard {w | ¬recognised w} = 12582912 ∧
  (∀ w, recognised w → zeroH w → ∃ opcode operand, Codec.decode [w.1, w.2.1, w.2.2] = .ok (opcode, operand) ∧
    opcode.toNat = w.1.toNat % 16 ∧ operand.toNat = value w / 16 % 32768) ∧
  (∀ w, recognised w → ¬zeroH w → ∃ opcode operand, Codec.decode [w.1, w.2.1, w.2.2] = .ok (opcode, operand) ∧
    opcode.toNat = w.1.toNat % 16 ∧ operand.toNat = value w / 2 ^ 19 * 32768 + value w / 16 % 32768 ∧
    32768 ≤ operand.toNat) ∧
  (∀ w, ¬recognised w → ∃ opcode, Codec.decode [w.1, w.2.1, w.2.2] = .error (.unknownOpcode opcode)) ∧
  Set.ncard {w | ∃ a b, Codec.encode a b = .ok w} = 524288 ∧
  Set.ncard {w | (∃ a b, Codec.encode a b = .ok w) ∧ recognised w} = 131072 ∧
  Set.ncard {w | (∃ a b, Codec.encode a b = .ok w) ∧ ¬recognised w} = 393216 ∧
  (∀ w, (∃ a b, Codec.encode a b = .ok w) → zeroH w)

/-- R98: the round trip from a request. -/
def Obligations.EncodeThenDecode : Prop :=
  ∀ (a : Opcode) (b : Nat), b ≤ 32767 →
    ∃ b0 b1 b2, Codec.encode a.toNat b = .ok (b0, b1, b2) ∧
      (a ∈ [4, 7, 11, 14] → Codec.decode [b0, b1, b2] = .ok (a, BitVec.ofNat 20 b)) ∧
      (a ∉ [4, 7, 11, 14] → Codec.decode [b0, b1, b2] = .error (.unknownOpcode a))

/-- R99: the round trip from a word is the identity on the canonical words and a RangeError on the others that decode. -/
def Obligations.DecodeThenEncode : Prop :=
  ∀ (b0 b1 b2 : Byte) (a : Opcode) (b : Operand), Codec.decode [b0, b1, b2] = .ok (a, b) →
    (b.toNat ≤ 32767 → Codec.encode a.toNat b.toNat = .ok (b0, b1, b2)) ∧
    (32767 < b.toNat → ∃ e, Codec.encode a.toNat b.toNat = .error e)

/-- R100: both operations are injective where they succeed, and they are inverse bijections between the recognised requests
and the canonical words, two sets of 131072 elements. -/
def Obligations.CodecIsBijection : Prop :=
  (∀ (a b a' b' : Int) (w : WordBytes), Codec.encode a b = .ok w → Codec.encode a' b' = .ok w → a = a' ∧ b = b') ∧
  (∀ (w w' : WordBytes) (p : Opcode × Operand), Codec.decode [w.1, w.2.1, w.2.2] = .ok p →
    Codec.decode [w'.1, w'.2.1, w'.2.2] = .ok p → w = w') ∧
  (let requests : Set (Opcode × Operand) := {p | p.1 ∈ [(4 : Opcode), 7, 11, 14] ∧ p.2.toNat ≤ 32767}
   let canonical : Set WordBytes :=
     {w | w.1.toNat % 16 ∈ [4, 7, 11, 14] ∧ littleEndian w.1 w.2.1 w.2.2 / 2 ^ 19 = 0}
   requests.ncard = 131072 ∧ canonical.ncard = 131072 ∧
   (∀ p ∈ requests, ∃ w ∈ canonical, Codec.encode p.1.toNat p.2.toNat = .ok w ∧
     Codec.decode [w.1, w.2.1, w.2.2] = .ok p) ∧
   (∀ w ∈ canonical, ∃ p ∈ requests, Codec.decode [w.1, w.2.1, w.2.2] = .ok p ∧
     Codec.encode p.1.toNat p.2.toNat = .ok w))

/-- R101: the two lookups, that they are inverse to each other, and that DECODE's opcode test is NAME_OF. -/
def Obligations.NameAndOpcodeLookup : Prop :=
  opcodeOf .loadConst = 14 ∧ opcodeOf .readValue = 11 ∧ opcodeOf .writeValue = 7 ∧ opcodeOf .sgn = 4 ∧
  (∀ n, nameOf (opcodeOf n) = some n) ∧ (∀ a n, nameOf a = some n → opcodeOf n = a) ∧
  (∀ a, a ∉ [(4 : Opcode), 7, 11, 14] → nameOf a = none) ∧
  (∀ (b0 b1 b2 : Byte) (a : Opcode), Codec.decode [b0, b1, b2] = .error (.unknownOpcode a) ↔
    a.toNat = b0.toNat % 16 ∧ nameOf a = none)

/-- Rests on R12, R90 and R103 (the ports are the spec's decision D2): for every request width, the logic of unit ENC computes
ENCODE of the integers on its ports. -/
def Obligations.EncUnitComputesEncode : Prop :=
  ∀ (w : Nat) (opcode operand : BitVec w),
    (∀ bytes, Codec.encode opcode.toInt operand.toInt = .ok bytes →
      encUnit opcode operand = ⟨true, 0, false, false, some bytes⟩ ∧
      (bus bytes).toNat = wordOf opcode.toNat operand.toNat) ∧
    (∀ e, Codec.encode opcode.toInt operand.toInt = .error e →
      encUnit opcode operand = ⟨false, 1, e.badOpcode, e.badOperand, none⟩)

/-- Rests on R13, R94 and R103 (the ports are the spec's decision D3): the logic of unit DEC computes DECODE; the bytes are
read only when `dec_len` is 3. -/
def Obligations.DecUnitComputesDecode : Prop :=
  (∀ (b0 b1 b2 : Byte) (a : Opcode) (b : Operand), Codec.decode [b0, b1, b2] = .ok (a, b) →
    ∃ n, nameOf a = some n ∧ decUnit 3 b0 b1 b2 = ⟨true, 0, some a, some b, some (nameIndex n)⟩) ∧
  (∀ (b0 b1 b2 : Byte) (a : Opcode), Codec.decode [b0, b1, b2] = .error (.unknownOpcode a) →
    decUnit 3 b0 b1 b2 = ⟨false, 3, some a, none, none⟩) ∧
  (∀ (len : Nat) (b0 b1 b2 : Byte), len ≠ 3 → decUnit len b0 b1 b2 = ⟨false, 2, none, none, none⟩)

/-! ## Decoding and encoding of instruction terms -/

/-- Rests on R51, R56 and the vectors of spec/95: words written out from the encodings decode to the instructions they stand for.
The last of them, `11 00 00`, selects no instruction (R57), and DECODE answers UnknownOpcodeError(1) (V-D20): that the decoder of
terms names it `unrecognised1` is the model's choice (log entry 4). -/
def Obligations.SpecWordsDecode : Prop :=
  decode [0xFE, 0x33, 0x00] = .ok (.loadConst 831) ∧
  decode [0x1B, 0x06, 0x00] = .ok (.readValue 97) ∧
  decode [0x37, 0x12, 0x00] = .ok (.writeValue 291) ∧
  decode [0xE4, 0x09, 0x00] = .ok (.sgn 158) ∧
  decode [0x04, 0x00, 0x08] = .ok (.sgn 32768) ∧
  decode [0x11, 0x00, 0x00] = .ok (.unrecognised1 1) ∧
  Codec.decode [0x11, 0x00, 0x00] = .error (.unknownOpcode 1)

/-- Rests on R57, R94 and R105: the decoder of terms is DECODE, with the illegal words named by the rows of the opcode table
(the model's choice, log entry 4). -/
def Obligations.TermDecodingIsDecode : Prop :=
  ∀ bytes : List Byte,
    (∀ a b, Codec.decode bytes = .ok (a, b) ↔
      ∃ i n, decode bytes = .ok i ∧ i.name = some n ∧ a = opcodeOf n ∧ i = instrNamed n b.toNat) ∧
    (∀ n, Codec.decode bytes = .error (.format n) ↔ decode bytes = .error (.format n)) ∧
    (∀ a : Opcode, Codec.decode bytes = .error (.unknownOpcode a) ↔
      ∃ i, decode bytes = .ok i ∧ i.name = none ∧ i.opcode = a.toNat)

/-- Rests on R51, R55 and R56: every well-formed instruction is what its encoding decodes to. -/
def Obligations.DecodeOfEncodedInstruction : Prop :=
  ∀ i : Instr, i.WellFormed → decode (encode i) = .ok i

/-- Rests on R51 to R53: what the decoder reads is well-formed and encodes to the bytes it was read from. -/
def Obligations.EncodeOfDecodedInstruction : Prop :=
  ∀ (bytes : List Byte) (i : Instr), decode bytes = .ok i → i.WellFormed ∧ encode i = bytes

/-! ## Stack and memory primitives -/

/-- The primitives of R17: push, pop, peek, stack_depth. -/
def Obligations.StackPrimitives : Prop :=
  ∀ (s : State) (v : Cell),
    s.push v = { s with stack := v :: s.stack } ∧
    (s.push v).pop = .ok (v, s) ∧ (s.push v).peek = .ok v ∧ (s.push v).stackDepth = s.stackDepth + 1 ∧
    (s.stack = [] → s.pop = .error .stackUnderflow ∧ s.peek = .error .stackUnderflow ∧ s.stackDepth = 0)

/-- R39: `read` and `write` of a canonical memory, and the addresses an instruction can present. -/
def Obligations.MemoryPrimitives : Prop :=
  (∀ (s : State) (addr : Int) (v : Cell), Memory.wf s.mem = true →
    (¬(0 ≤ addr ∧ addr < s.memSize) →
      s.memRead addr = .error (.addressRange addr) ∧ s.memWrite addr v = .error (.addressRange addr)) ∧
    (0 ≤ addr ∧ addr < s.memSize →
      s.memRead addr = .ok (Memory.read s.mem addr.toNat) ∧
      ∃ t, s.memWrite addr v = .ok t ∧ t = { s with mem := t.mem } ∧
        Memory.read t.mem addr.toNat = v ∧ t.memRead addr = .ok v ∧
        (∀ a : Nat, (a : Int) ≠ addr → Memory.read t.mem a = Memory.read s.mem a) ∧
        Memory.wf t.mem = true)) ∧
  (∀ (bytes : List Byte) (i : Instr), decode bytes = .ok i →
    0 ≤ effectiveAddress i.operand ∧ effectiveAddress i.operand ≤ 1048575)

/-! ## The instructions -/

/-- R122: which words are `load_const b`, and that it always completes, pushing `b`. -/
def Obligations.LoadConstPushesOperand : Prop :=
  (∀ b0 b1 b2 : Byte, b0.toNat % 16 = 14 → decode [b0, b1, b2] = .ok (.loadConst (littleEndian b0 b1 b2 / 16))) ∧
  (∀ (b : Nat) (s : State),
    exec (.loadConst b) s = .next { s with
      stack := (b : Int) :: s.stack
      trace := s.trace ++ [.step s.ip .loadConst b s.stack]
      ip := s.ip + 1 })

/-- R123: which words are `read_value b`; inside the memory it pushes the cell, outside it halts with AddressRangeError. -/
def Obligations.ReadValuePushesCell : Prop :=
  (∀ b0 b1 b2 : Byte, b0.toNat % 16 = 11 → decode [b0, b1, b2] = .ok (.readValue (littleEndian b0 b1 b2 / 16))) ∧
  (∀ (b : Nat) (s : State),
    (b < s.memSize → exec (.readValue b) s = .next { s with
      stack := Memory.read s.mem b :: s.stack
      trace := s.trace ++ [.step s.ip .readValue b s.stack]
      ip := s.ip + 1 }) ∧
    (s.memSize ≤ b → exec (.readValue b) s = .next { s with
      status := .haltedError
      error := some ⟨.addressRange b, s.ip⟩
      trace := s.trace ++ [.step s.ip .readValue b s.stack, .error s.ip (.addressRange b)] }))

/-- R124: which words are `write_value b`; the pop comes first, then the store; a bad address keeps the pop. -/
def Obligations.WriteValuePopsThenStores : Prop :=
  (∀ b0 b1 b2 : Byte, b0.toNat % 16 = 7 → decode [b0, b1, b2] = .ok (.writeValue (littleEndian b0 b1 b2 / 16))) ∧
  (∀ (b : Nat) (s : State) (v : Cell) (rest : List Cell), Memory.wf s.mem = true → s.stack = v :: rest →
    b < s.memSize →
    ∃ t, exec (.writeValue b) s = .next t ∧
      t = { s with
        stack := rest
        mem := t.mem
        trace := s.trace ++ [.step s.ip .writeValue b s.stack]
        ip := s.ip + 1 } ∧
      Memory.read t.mem b = v ∧ ∀ a, a ≠ b → Memory.read t.mem a = Memory.read s.mem a) ∧
  (∀ (b : Nat) (s : State), s.stack = [] →
    exec (.writeValue b) s = .next { s with
      status := .haltedError
      error := some ⟨.stackUnderflow, s.ip⟩
      trace := s.trace ++ [.step s.ip .writeValue b s.stack, .error s.ip .stackUnderflow] }) ∧
  (∀ (b : Nat) (s : State) (v : Cell) (rest : List Cell), s.stack = v :: rest → s.memSize ≤ b →
    exec (.writeValue b) s = .next { s with
      stack := rest
      status := .haltedError
      error := some ⟨.addressRange b, s.ip⟩
      trace := s.trace ++ [.step s.ip .writeValue b s.stack, .error s.ip (.addressRange b)] })

/-- R125: which words are `sgn b`; inside the memory it pushes the sign of the cell and pops nothing, outside it halts with
AddressRangeError. -/
def Obligations.SgnPushesSignOfCell : Prop :=
  (∀ b0 b1 b2 : Byte, b0.toNat % 16 = 4 → decode [b0, b1, b2] = .ok (.sgn (littleEndian b0 b1 b2 / 16))) ∧
  (∀ (b : Nat) (s : State),
    (b < s.memSize → ∃ v : Cell,
      (0 < Memory.read s.mem b → v = 1) ∧ (Memory.read s.mem b < 0 → v = -1) ∧ (Memory.read s.mem b = 0 → v = 0) ∧
      exec (.sgn b) s = .next { s with
        stack := v :: s.stack
        trace := s.trace ++ [.step s.ip .sgn b s.stack]
        ip := s.ip + 1 }) ∧
    (s.memSize ≤ b → exec (.sgn b) s = .next { s with
      status := .haltedError
      error := some ⟨.addressRange b, s.ip⟩
      trace := s.trace ++ [.step s.ip .sgn b s.stack, .error s.ip (.addressRange b)] }))

/-- Rests on R57, R121, R153 and R162: the own effect of each of the twelve words that select no instruction is
UnknownOpcodeError with its opcode; there is no step entry and nothing else changes. That these words are terms is the model's
choice (log entry 4). -/
def Obligations.UnrecognisedWordsHaltTheRun : Prop :=
  ∀ (x : Nat) (s : State), ∀ p ∈
    [(Instr.unrecognised0 x, (0 : Opcode)), (.unrecognised1 x, 1), (.unrecognised2 x, 2), (.unrecognised3 x, 3),
      (.unrecognised5 x, 5), (.unrecognised6 x, 6), (.unrecognised8 x, 8), (.unrecognised9 x, 9),
      (.unrecognised10 x, 10), (.unrecognised12 x, 12), (.unrecognised13 x, 13), (.unrecognised15 x, 15)],
    exec p.1 s = .next { s with
      status := .haltedError
      error := some ⟨.codec (.unknownOpcode p.2), s.ip⟩
      trace := s.trace ++ [.error s.ip (.codec (.unknownOpcode p.2))] }

/-- R57: a word whose field A is one of the twelve values is illegal whatever B and H hold, while ENCODE accepts those opcodes
and produces such words. -/
def Obligations.UnrecognisedOpcodesEncodeButDoNotDecode : Prop :=
  ∀ a ∈ [(0 : Opcode), 1, 2, 3, 5, 6, 8, 9, 10, 12, 13, 15],
    (∀ b0 b1 b2 : Byte, b0.toNat % 16 = a.toNat → Codec.decode [b0, b1, b2] = .error (.unknownOpcode a)) ∧
    (∀ b : Nat, b ≤ 32767 → ∃ b0 b1 b2, Codec.encode a.toNat b = .ok (b0, b1, b2) ∧ b0.toNat % 16 = a.toNat)

/-- The frame of the forms that store nothing (R122, R123, R125, R57, R162): `load_const`, `read_value`, `sgn` and the twelve
illegal words. -/
def Obligations.FrameOfFormsThatStoreNothing : Prop :=
  ∀ (i : Instr) (s t : State), (∀ b, i ≠ .writeValue b) → exec i s = .next t →
    t.image = s.image ∧ t.memSize = s.memSize ∧
    (∀ a, Memory.read t.mem a = Memory.read s.mem a) ∧
    (∃ more, t.trace = s.trace ++ more) ∧
    ((i.name.isSome = true ∧ t.status = s.status ∧ t.error = s.error ∧ ∃ v, t.stack = v :: s.stack) ∨
      (t.status = .haltedError ∧ t.ip = s.ip ∧ t.stack = s.stack))

/-- The frame of the form that stores (R124, R162): `write_value`. -/
def Obligations.FrameOfWriteValue : Prop :=
  ∀ (b : Nat) (s t : State), Memory.wf s.mem = true → exec (.writeValue b) s = .next t →
    t.image = s.image ∧ t.memSize = s.memSize ∧
    (∀ a c : Nat, effectiveAddress b = (a : Int) → c ≠ a → Memory.read t.mem c = Memory.read s.mem c) ∧
    (∃ more, t.trace = s.trace ++ more) ∧
    ((t.status = s.status ∧ t.error = s.error ∧ ∃ v, s.stack = v :: t.stack) ∨
      (t.status = .haltedError ∧ (∀ a, Memory.read t.mem a = Memory.read s.mem a) ∧
        (t.stack = s.stack ∨ ∃ v, s.stack = v :: t.stack)))

/-- Rests on R42: a load after a store to the same cell sees the value stored, a load of another cell does not see the store. -/
def Obligations.LoadSeesLatestStore : Prop :=
  ∀ (b c : Nat) (s t u : State) (v : Cell) (rest : List Cell), Memory.wf s.mem = true → s.stack = v :: rest →
    b < s.memSize → c < s.memSize → exec (.writeValue b) s = .next t → exec (.readValue c) t = .next u →
    u.stack = (if c = b then v else Memory.read s.mem c) :: rest ∧ u.mem = t.mem

/-! ## Steps -/

/-- Rests on R105 and R120: where the run is not over and the slot at `ip` holds a well-formed instruction, the step is that
instruction's meaning. -/
def Obligations.StepRunsDecodedInstruction : Prop :=
  ∀ (s : State) (i : Instr), s.status = .running → s.ip < instructionCount s.image → decode s.fetch = .ok i →
    step s = exec i s

/-- R105: at each step the engine decodes `ImgRead(3 * ip, 3)`; it executes the named instruction with the decoded operand, or
halts on the decode error without advancing `ip`; the slot is 1 to 3 bytes long. -/
def Obligations.StepFollowsDecode : Prop :=
  ∀ s : State, s.status = .running → s.ip < instructionCount s.image →
    (∀ a b, Codec.decode (imgRead s.image (3 * s.ip) 3) = .ok (a, b) →
      ∃ n, nameOf a = some n ∧ step s = exec (instrNamed n b.toNat) s) ∧
    (∀ e, Codec.decode (imgRead s.image (3 * s.ip) 3) = .error e →
      step s = .next { s with
        status := .haltedError
        error := some ⟨.codec e, s.ip⟩
        trace := s.trace ++ [.error s.ip (.codec e)] }) ∧
    1 ≤ (imgRead s.image (3 * s.ip) 3).length ∧ (imgRead s.image (3 * s.ip) 3).length ≤ 3

/-- R188: a run is over exactly in COMPLETED and HALTED_ERROR, and COMPLETED is reached when and only when `ip` is found to be
at the end of the program. -/
def Obligations.CompletedExactlyAtProgramEnd : Prop :=
  (∀ s : State, (∃ t, step s = .next t) ↔ ¬(s.status = .completed ∨ s.status = .haltedError)) ∧
  (∀ s : State, s.status = .running → instructionCount s.image ≤ s.ip →
    step s = .next { s with status := .completed }) ∧
  (∀ s t : State, step s = .next t → (t.status = .completed ↔ instructionCount s.image ≤ s.ip))

/-- Rests on R130 and R165: a state whose run is over has no step, and that is the only way a step stops; no instruction is
refused. That it is the fault `runOver` is the model's choice (log entry 2). -/
def Obligations.StepStopsOnlyWhenRunIsOver : Prop :=
  (∀ (s : State) (f : Fault), step s = .fault f ↔ f = .runOver ∧ s.status ≠ .running) ∧
  (∀ (s : State) (r : Refusal), step s ≠ .refused r) ∧
  (∀ (i : Instr) (s : State), ∃ t, exec i s = .next t)

/-- Rests on R16, R18, R19, R130, R132 and R134: every step keeps the invariant of a run. -/
def Obligations.StepKeepsInv : Prop :=
  ∀ s t : State, s.Inv → step s = .next t → t.Inv

/-- Rests on R25 and R183: the invariant holds after reset and at the start of every run with canonical initial memory. -/
def Obligations.InvHoldsAtStart : Prop :=
  State.reset.Inv ∧
  ∀ (image : List Byte) (size : Nat) (mem0 : Memory), Memory.wf mem0 = true → Memory.fits size mem0 = true →
    (State.start image size mem0).Inv

/-- R127: `ip` moves on by exactly one when a step succeeds and stays where the run ends, which is past the last slot or at
an error. -/
def Obligations.IpOnlyIncrements : Prop :=
  ∀ s t : State, step s = .next t →
    (t.status = .running → t.ip = s.ip + 1) ∧
    (t.status ≠ .running → t.ip = s.ip ∧
      ((t.status = .completed ∧ instructionCount s.image ≤ s.ip) ∨
        (t.status = .haltedError ∧ ∃ e, t.error = some ⟨e, s.ip⟩)))

/-- R45: the image a run executes never changes, nor does the memory size. -/
def Obligations.ImageIsNeverWritten : Prop :=
  (∀ s t : State, step s = .next t → t.image = s.image ∧ t.memSize = s.memSize) ∧
  (∀ (image : List Byte) (size : Nat) (mem0 : Memory) (k : Nat),
    (runFor k (State.start image size mem0)).image = image)

/-- R162: on an error at slot `k` the status, the error record and the error entry are written, `ip` stays `k`, stack and
memory stay as the failing instruction left them, and the run is over: there is no next state. -/
def Obligations.ErrorHaltsInPlace : Prop :=
  ∀ s t : State, step s = .next t → t.status = .haltedError →
    ∃ e before, t.error = some ⟨e, s.ip⟩ ∧ t.trace = s.trace ++ before ++ [.error s.ip e] ∧ t.ip = s.ip ∧
      t.mem = s.mem ∧
      (t.stack = s.stack ∨ ∃ b v, decode s.fetch = .ok (.writeValue b) ∧ s.stack = v :: t.stack) ∧
      ∀ u, step t ≠ .next u

/-- Rests on R161 and R163: which error a step reports, and that a failing instruction has no effect but the pop of a
`write_value` to a bad address. -/
def Obligations.ErrorPriorityAndPrecision : Prop :=
  ∀ (s t : State) (e : RunError) (k : Nat), step s = .next t → t.status = .haltedError → t.error = some ⟨e, k⟩ →
    k = s.ip ∧ t.mem = s.mem ∧
    ((∃ c, Codec.decode s.fetch = .error c ∧ e = .codec c ∧ t.stack = s.stack) ∨
     (∃ b, decode s.fetch = .ok (.writeValue b) ∧ s.stack = [] ∧ e = .stackUnderflow ∧ t.stack = []) ∨
     (∃ b v, decode s.fetch = .ok (.writeValue b) ∧ s.stack = v :: t.stack ∧ s.memSize ≤ b ∧ e = .addressRange b) ∨
     (∃ b, (decode s.fetch = .ok (.readValue b) ∨ decode s.fetch = .ok (.sgn b)) ∧ s.memSize ≤ b ∧
       e = .addressRange b ∧ t.stack = s.stack))

/-- R154: the primitives raise StackUnderflowError exactly on the empty stack, and in a run it arises exactly when
`write_value` executes with depth 0; stack and memory are unchanged. -/
def Obligations.StackUnderflowExactly : Prop :=
  (∀ s : State, (s.pop = .error .stackUnderflow ↔ s.stack = []) ∧ (s.peek = .error .stackUnderflow ↔ s.stack = [])) ∧
  (∀ s t : State, step s = .next t →
    ((t.status = .haltedError ∧ t.error = some ⟨.stackUnderflow, s.ip⟩) ↔
      s.ip < instructionCount s.image ∧ (∃ b, decode s.fetch = .ok (.writeValue b)) ∧ s.stackDepth = 0) ∧
    (t.status = .haltedError ∧ t.error = some ⟨.stackUnderflow, s.ip⟩ → t.stack = s.stack ∧ t.mem = s.mem))

/-- R155: the primitives raise AddressRangeError exactly outside `[0, MEM_SIZE)`, with the address; in a run it is raised
through `read_value`, `sgn` and `write_value`, memory is unchanged, and `write_value` has already lost its top element. -/
def Obligations.AddressRangeExactly : Prop :=
  (∀ (s : State) (addr : Int) (v : Cell),
    (s.memRead addr = .error (.addressRange addr) ↔ ¬(0 ≤ addr ∧ addr < s.memSize)) ∧
    (s.memWrite addr v = .error (.addressRange addr) ↔ ¬(0 ≤ addr ∧ addr < s.memSize))) ∧
  (∀ (s t : State) (addr : Int), step s = .next t →
    ((t.status = .haltedError ∧ t.error = some ⟨.addressRange addr, s.ip⟩) ↔
      s.ip < instructionCount s.image ∧ ∃ b : Nat, addr = b ∧ s.memSize ≤ b ∧
        ((decode s.fetch = .ok (.readValue b) ∨ decode s.fetch = .ok (.sgn b)) ∨
          (decode s.fetch = .ok (.writeValue b) ∧ s.stack ≠ []))) ∧
    (t.status = .haltedError ∧ t.error = some ⟨.addressRange addr, s.ip⟩ → t.mem = s.mem ∧
      ∀ b, decode s.fetch = .ok (.writeValue b) → ∃ v, s.stack = v :: t.stack))

/-- R152: FormatError is raised exactly for a length other than 3 and carries it; in a run it can arise only at the last slot of
an image whose length is not a multiple of 3. -/
def Obligations.FormatErrorExactly : Prop :=
  (∀ (bytes : List Byte) (n : Nat), Codec.decode bytes = .error (.format n) ↔ bytes.length ≠ 3 ∧ n = bytes.length) ∧
  (∀ (s t : State) (n k : Nat), step s = .next t → t.status = .haltedError →
    t.error = some ⟨.codec (.format n), k⟩ →
    s.ip + 1 = instructionCount s.image ∧ s.image.length % 3 ≠ 0 ∧ n = s.image.length % 3)

/-- Rests on R47: the number of slots is the length over 3, rounded up; every slot has 3 bytes but a leftover last one, which halts the
run with FormatError when `ip` reaches it. That the count is rounded up and leftover bytes are a slot is the spec's own decision
D14, as R47 marks it (log entry 10). -/
def Obligations.SlotsOfAnImage : Prop :=
  ∀ image : List Byte,
    image.length ≤ 3 * instructionCount image ∧ 3 * instructionCount image < image.length + 3 ∧
    (image.length % 3 = 0 → image.length = 3 * instructionCount image ∧
      ∀ i, i < instructionCount image → (slot image i).length = 3) ∧
    (image.length % 3 ≠ 0 →
      (∀ i, i + 1 < instructionCount image → (slot image i).length = 3) ∧
      (slot image (instructionCount image - 1)).length = image.length % 3 ∧
      ∀ s : State, s.image = image → s.status = .running → s.ip + 1 = instructionCount image →
        step s = .next (s.raise (.codec (.format (image.length % 3)))))

/-! ## Runs -/

/-- Rests on R131: every run is over after as many steps as the image has slots and the pass that finds its end; `n` instructions
without error complete in `n` steps with `ip = n`, and a run that halts at `k` has completed exactly `k` instructions. That the end of the program is found by a pass of its own, so
that the bound is one more than the number of slots, is the model's reading of the loop of R120 (log entry 1). -/
def Obligations.RunTerminatesWithinSlotCount : Prop :=
  ∀ (image : List Byte) (size : Nat) (mem0 : Memory),
    let n := instructionCount image
    let s0 := State.start image size mem0
    let final := run image size mem0
    final.status ≠ .running ∧ (∀ k, n + 1 ≤ k → runFor k s0 = final) ∧
    (∀ k, k ≤ final.ip → (runFor k s0).status = .running ∧ (runFor k s0).ip = k) ∧
    (final.status = .completed → final.ip = n) ∧
    (final.status = .haltedError → final.ip < n ∧ runFor (final.ip + 1) s0 = final)

/-- R130: the two ways a run ends, that both are final (no next state), and that the empty program completes at once. -/
def Obligations.TerminationStates : Prop :=
  (∀ (image : List Byte) (size : Nat) (mem0 : Memory),
    let final := run image size mem0
    ((final.status = .completed ∧ final.ip = instructionCount image ∧ final.error = none) ∨
      (final.status = .haltedError ∧ final.ip < instructionCount image ∧ ∃ e, final.error = some ⟨e, final.ip⟩)) ∧
    ∀ t, step final ≠ .next t) ∧
  (∀ (size : Nat) (mem0 : Memory),
    run [] size mem0 = { State.start [] size mem0 with status := .completed })

/-- R134: the trace of a run has one step entry for each completed instruction, in `ip` order, with the name, the operand and
the stack before execution; a run that halts on an error has one error entry, last. -/
def Obligations.TraceOfARun : Prop :=
  ∀ (image : List Byte) (size : Nat) (mem0 : Memory),
    let s0 := State.start image size mem0
    let final := run image size mem0
    (∀ j, j < final.ip → ∃ i name, decode (slot image j) = .ok i ∧ i.name = some name ∧
      final.trace[j]? = some (.step j name i.operand (runFor j s0).stack)) ∧
    (final.status = .completed → final.trace.length = final.ip) ∧
    (final.status = .haltedError → ∃ before e, final.trace = before ++ [.error final.ip e] ∧
      final.error = some ⟨e, final.ip⟩ ∧ (∀ entry ∈ before, entry.stepIp.isSome = true) ∧
      ((before.length = final.ip ∧ ∃ c, e = .codec c) ∨
        (before.length = final.ip + 1 ∧ ∃ i name, decode (slot image final.ip) = .ok i ∧ i.name = some name ∧
          before[final.ip]? = some (.step final.ip name i.operand (runFor final.ip s0).stack))))

/-- R132: each instruction changes the depth by one, so the depth never exceeds the number of completed instructions nor the
number of slots; a run may complete with values left on the stack. -/
def Obligations.StackDepthIsBounded : Prop :=
  (∀ (i : Instr) (s t : State), exec i s = .next t → t.ip = s.ip + 1 →
    (∀ b, i = .writeValue b → t.stackDepth + 1 = s.stackDepth) ∧
    ((∀ b, i ≠ .writeValue b) → t.stackDepth = s.stackDepth + 1)) ∧
  (∀ (image : List Byte) (size : Nat) (mem0 : Memory) (k : Nat),
    let s := runFor k (State.start image size mem0)
    s.stackDepth ≤ s.ip ∧ s.stackDepth ≤ instructionCount image) ∧
  (∃ image, (run image 2048 []).status = .completed ∧ (run image 2048 []).stack ≠ [])

/-- Rests on R126, R133 and decision D15: started from all-zero memory, every value on the stack or in memory is -1 or an
operand of a word. -/
def Obligations.ReachableValues : Prop :=
  (∀ s t : State, s.ValuesOk → step s = .next t → t.ValuesOk) ∧
  (∀ (image : List Byte) (size k : Nat), (runFor k (State.start image size [])).ValuesOk)

/-- R181: the state right after creation. -/
def Obligations.ResetState : Prop :=
  State.reset.ip = 0 ∧ State.reset.stack = [] ∧ State.reset.memSize = 2048 ∧
  (∀ a, Memory.read State.reset.mem a = 0) ∧
  State.reset.status = .running ∧ State.reset.error = none ∧ State.reset.trace = []

/-- Rests on R124, R154, R155 and R185: a program of canonical instructions that keeps the stack discipline and uses only
addresses of the memory runs safely to its end. -/
def Obligations.DisciplinedProgramsComplete : Prop :=
  ∀ (program : List (OpName × Nat)) (size : Nat) (mem0 : Memory),
    (∀ p ∈ program, p.2 ≤ 32767) → (∀ p ∈ program, p.1 ≠ .loadConst → p.2 < size) → KeepsStackDiscipline program →
    let final := run (program.flatMap fun p => encode (instrNamed p.1 p.2)) size mem0
    final.Safe ∧ final.status = .completed ∧ final.ip = program.length

/-! ## Errors and the Assembler -/

/-- Rests on R150 and R164: an assembly-stage kind never appears in a run nor an execution-stage kind in an assembly, and the
codes are those of the table. -/
def Obligations.ErrorStagesAreSeparate : Prop :=
  (∀ e : RunError, isAssemblyStage (runErrorKind e) = false) ∧
  (∀ e : AsmError, isAssemblyStage (asmErrorKind e) = true) ∧
  (∀ k k' : ErrorKind, errorCode k = errorCode k' → k = k') ∧
  errorCode .rangeError = 1 ∧ errorCode .formatError = 2 ∧ errorCode .unknownOpcodeError = 3 ∧
  errorCode .stackUnderflowError = 4 ∧ errorCode .addressRangeError = 5 ∧ errorCode .syntaxError = 6 ∧
  errorCode .unknownCommandError = 7

/-- Rests on R67: a command is one of the four names, compared exactly, and stands for its opcode of R56; another name is an
UnknownCommandError that names it. That names are compared exactly is the spec's own decision D19, as R67 marks it (log
entry 14). -/
def Obligations.CommandLookupIsExact : Prop :=
  (∀ (command : List Char) (name : OpName), lookupCommand command = some name ↔ command = spelling name) ∧
  spelling .loadConst = "load_const".toList ∧ spelling .readValue = "read_value".toList ∧
  spelling .writeValue = "write_value".toList ∧ spelling .sgn = "sgn".toList ∧
  opcodeOf .loadConst = 14 ∧ opcodeOf .readValue = 11 ∧ opcodeOf .writeValue = 7 ∧ opcodeOf .sgn = 4 ∧
  (∀ (n : Nat) (line command argument : List Char) (z : Int), tokens (prepare line) = [command, argument] →
    parseLiteral argument = some z → (∀ name, command ≠ spelling name) →
    parseLine n line = .error ⟨n, .unknownCommand command⟩)

/-- Rests on R63, R65 and R72: a source is UTF-8 text, lines end at line feeds and a last line without one is a line, tokens are
separated by any run of whitespace, and any amount of it may stand before, between and after the two tokens of a line. That
UTF-8 is the layout of Lean's own `String.utf8EncodeChar`, and that bytes which are not UTF-8 have no assembly, are the model's
(log entry 13); the line end and the whitespace characters are the spec's own decision D18 (log entry 14). -/
def Obligations.LinesAndTokensSplit : Prop :=
  (∀ text : List Char, encodeUtf8 text = text.flatMap fun c => (String.utf8EncodeChar c).map UInt8.toBitVec) ∧
  (∀ (bytes : List Byte) (text : List Char), decodeUtf8 bytes = some text ↔ bytes = encodeUtf8 text) ∧
  (∀ bytes : List Byte,
    (∀ text, bytes = encodeUtf8 text → assembleBytes bytes = some (assemble text)) ∧
    ((∀ text, bytes ≠ encodeUtf8 text) → assembleBytes bytes = none)) ∧
  (∀ (lines : List (List Char)) (last : List Char), (∀ l ∈ lines, '\n' ∉ l) → '\n' ∉ last →
    splitLines (lines.flatMap fun l => l ++ ['\n']) = lines ∧
    (last ≠ [] → splitLines ((lines.flatMap fun l => l ++ ['\n']) ++ last) = lines ++ [last])) ∧
  (∀ blanks : List Char, (∀ c ∈ blanks, isBlank c = true) → tokens blanks = []) ∧
  (∀ (front first : List Char) (pieces : List (List Char × List Char)) (back : List Char),
    (∀ c ∈ front, isBlank c = true) → first ≠ [] → (∀ c ∈ first, isBlank c = false) →
    (∀ p ∈ pieces, p.1 ≠ [] ∧ (∀ c ∈ p.1, isBlank c = true) ∧ p.2 ≠ [] ∧ (∀ c ∈ p.2, isBlank c = false)) →
    (∀ c ∈ back, isBlank c = true) →
    tokens (front ++ first ++ (pieces.flatMap fun p => p.1 ++ p.2) ++ back) = first :: pieces.map fun p => p.2) ∧
  (∀ (front command gap argument back : List Char), (∀ c ∈ front, isBlank c = true) → (∀ c ∈ gap, isBlank c = true) →
    (∀ c ∈ back, isBlank c = true) → command ≠ [] → gap ≠ [] → argument ≠ [] →
    (∀ c ∈ command, isBlank c = false ∧ c ≠ '#') → (∀ c ∈ argument, isBlank c = false ∧ c ≠ '#') →
    tokens (prepare (front ++ command ++ gap ++ argument ++ back)) = [command, argument] ∧
    ∀ n, parseLine n (front ++ command ++ gap ++ argument ++ back) = parseLine n (command ++ ' ' :: argument)) ∧
  (∀ c : Char, isBlank c = true ↔ c = ' ' ∨ c = '\t' ∨ c = '\r')

/-- Rests on R66 and R68: an integer literal is an optional sign and one or more ASCII digits, read in base 10, and nothing else; another token
is a SyntaxError with the line number and the token; a negative literal parses, and its encoding is a RangeError. The grammar is the spec's own decision D17, as R66 marks it (log
entry 14); the line number that the RangeError carries is read from R150 (log entry 15). -/
def Obligations.IntegerLiteralGrammar : Prop :=
  (∀ ds : List Char, ds ≠ [] → (∀ c ∈ ds, '0' ≤ c ∧ c ≤ '9') →
    let value : Int := (Nat.ofDigits 10 (ds.reverse.map fun c => c.toNat - '0'.toNat) : Nat)
    parseLiteral ds = some value ∧ parseLiteral ('+' :: ds) = some value ∧ parseLiteral ('-' :: ds) = some (-value)) ∧
  (∀ (t : List Char) (z : Int), parseLiteral t = some z →
    ∃ ds : List Char, ds ≠ [] ∧ (∀ c ∈ ds, '0' ≤ c ∧ c ≤ '9') ∧ (t = ds ∨ t = '+' :: ds ∨ t = '-' :: ds)) ∧
  (∀ (n : Nat) (line command argument : List Char), tokens (prepare line) = [command, argument] →
    parseLiteral argument = none → parseLine n line = .error ⟨n, .badLiteral argument⟩) ∧
  (∀ i : SourceInstr, i.operand < 0 → encodeSource i = .error ⟨i.line, .range ⟨false, true⟩⟩)

/-- Rests on R73: the order of the checks on one line, and across lines. The order is the spec's own decision D20, as R73 marks it
(log entry 14). -/
def Obligations.LineCheckOrder : Prop :=
  (∀ (n : Nat) (line : List Char), prepare line ≠ [] →
    ((tokens (prepare line)).length ≠ 2 → parseLine n line = .error ⟨n, .tokenCount⟩) ∧
    (∀ c a, tokens (prepare line) = [c, a] →
      (parseLiteral a = none → parseLine n line = .error ⟨n, .badLiteral a⟩) ∧
      (∀ z, parseLiteral a = some z → lookupCommand c = none → parseLine n line = .error ⟨n, .unknownCommand c⟩) ∧
      (∀ z name, parseLiteral a = some z → lookupCommand c = some name →
        parseLine n line = .ok (some ⟨n, name, z⟩)))) ∧
  (∀ (before after : List (List Char)) (line : List Char) (e : AsmReport),
    (∀ k l, before[k]? = some l → ∃ r, parseLine (k + 1) l = .ok r) →
    parseLine (before.length + 1) line = .error e → parseLines 1 (before ++ line :: after) = .error e)

/-- Rests on R64 and R72: a comment changes nothing, a line of whitespace is skipped, surrounding whitespace is trimmed, and a
skipped line still counts for the line numbers of the others. -/
def Obligations.CommentsAndBlanksAreSkipped : Prop :=
  (∀ (n : Nat) (line comment : List Char), parseLine n (line ++ '#' :: comment) = parseLine n line) ∧
  (∀ (n : Nat) (blanks : List Char), (∀ c ∈ blanks, isBlank c = true) → parseLine n blanks = .ok none) ∧
  (∀ (n : Nat) (front line back : List Char), (∀ c ∈ front, isBlank c = true) → (∀ c ∈ back, isBlank c = true) →
    '#' ∉ line → parseLine n (front ++ line ++ back) = parseLine n line) ∧
  (∀ (n : Nat) (line : List Char) (lines : List (List Char)), parseLine n line = .ok none →
    parseLines n (line :: lines) = parseLines (n + 1) lines)

/-- Rests on R68: all parsing precedes all encoding; the parse phase raises only SyntaxError and UnknownCommandError, the encode phase
only RangeError, for the first instruction in list order whose operand is out of range. That this RangeError carries the line
of that instruction is read from R150 (log entry 15). -/
def Obligations.ParsingPrecedesEncoding : Prop :=
  ∀ text : List Char,
    (∀ e, parseText text = .error e →
      assemble text = .error e ∧ asmErrorKind e.error ∈ [ErrorKind.syntaxError, .unknownCommandError]) ∧
    (∀ is, parseText text = .ok is →
      ((∀ i ∈ is, 0 ≤ i.operand ∧ i.operand ≤ 32767) → ∃ image, assemble text = .ok (image, is.map fun i => (i.name, i.operand))) ∧
      (∀ before i after, is = before ++ i :: after → (∀ j ∈ before, 0 ≤ j.operand ∧ j.operand ≤ 32767) →
        (i.operand < 0 ∨ 32767 < i.operand) → assemble text = .error ⟨i.line, .range ⟨false, true⟩⟩))

/-- R69: the instruction list is what the lines of the text give, in source order; the image is the concatenation of the
encodings of its elements, in the same order, 3 bytes each; a text without instruction lines gives the empty list and image. -/
def Obligations.AssembledImageFollowsTheList : Prop :=
  (∀ (text : List Char) (image : List Byte) (list : List (OpName × Int)), assemble text = .ok (image, list) →
    image.length = 3 * list.length ∧ instructionCount image = list.length ∧
    ∀ k name operand, list[k]? = some (name, operand) → ∃ b0 b1 b2,
      Codec.encode (opcodeOf name).toNat operand = .ok (b0, b1, b2) ∧ slot image k = [b0, b1, b2]) ∧
  (∀ (text : List Char) (image : List Byte) (list : List (OpName × Int)), assemble text = .ok (image, list) →
    ∃ results : List (Option SourceInstr), results.length = (splitLines text).length ∧
      (∀ k line, (splitLines text)[k]? = some line → ∃ r, results[k]? = some r ∧ parseLine (k + 1) line = .ok r) ∧
      list = results.filterMap fun r => r.map fun i => (i.name, i.operand)) ∧
  (∀ text : List Char, (∀ line ∈ splitLines text, ∀ n, parseLine n line = .ok none) → assemble text = .ok ([], []))

/-- Rests on R58, R60, R69, R98 and R105: the slots of an assembled image decode to the elements of the instruction list; a step
in a state that holds the image executes the element at `ip`, and a run of it executes element `k` as its step `k`, for every
`k` up to its final `ip`; no step and no run ends in a decode error. -/
def Obligations.AssembledProgramsNeverFailToDecode : Prop :=
  ∀ (text : List Char) (image : List Byte) (list : List (OpName × Int)), assemble text = .ok (image, list) →
    (∀ k name operand, list[k]? = some (name, operand) →
      decode (slot image k) = .ok (instrNamed name operand.toNat) ∧ 0 ≤ operand ∧ operand ≤ 32767) ∧
    (∀ (s : State) (name : OpName) (operand : Int), s.image = image → s.status = .running →
      list[s.ip]? = some (name, operand) → step s = exec (instrNamed name operand.toNat) s) ∧
    (∀ (s t : State) (c : CodecError) (k : Nat), s.image = image → step s = .next t → t.status = .haltedError →
      t.error ≠ some ⟨.codec c, k⟩) ∧
    ∀ (size : Nat) (mem0 : Memory),
      let final := run image size mem0
      (∀ k name operand, k ≤ final.ip → list[k]? = some (name, operand) →
        step (runFor k (State.start image size mem0)) =
          exec (instrNamed name operand.toNat) (runFor k (State.start image size mem0))) ∧
      ∀ (c : CodecError) (k : Nat), final.error ≠ some ⟨.codec c, k⟩

/-- Rests on R71 and R74: a program of canonical instructions, each written in its disassembly spelling on a line of its own,
assembles to the encodings of those instructions. -/
def Obligations.DisassembledProgramsAssembleBack : Prop :=
  ∀ program : List (OpName × Nat), (∀ p ∈ program, p.2 ≤ 32767) →
    assemble (program.flatMap fun p => disassembleNamed p.1 p.2 ++ ['\n']) =
      .ok (program.flatMap fun p => encode (instrNamed p.1 p.2), program.map fun p => (p.1, (p.2 : Int)))

/-- Rests on R58 and R74: a non-canonical word disassembles to a line that the Assembler rejects with RangeError; an illegal
word has no spelling (log entry 19). That the RangeError carries the line number, 1, is read from R150 (log entry 15). -/
def Obligations.NonCanonicalSpellingIsRejected : Prop :=
  (∀ (i : Instr) (text : List Char), 32767 < i.operand → disassemble i = some text →
    assemble text = .error ⟨1, .range ⟨false, true⟩⟩) ∧
  (∀ i : Instr, disassemble i = none ↔ i.name = none)
end

