-- ==== Sys2Proof/Laws/Assembler.lean ====
section
/-! SUPPORT. How the Assembler's readers of bytes and characters step over their input (spec/30_encoding.md R63, R65, R72). -/

namespace Sys2Proof.Machine

/-- Whitespace before a token is skipped. -/
theorem tokens_blank_cons {c : Char} (h : isBlank c = true) (rest : List Char) : tokens (c :: rest) = tokens rest := by
  cases rest <;> simp [tokens, h]

/-- A character followed by whitespace ends its token. -/
theorem tokens_cons_blank {c d : Char} (hc : isBlank c = false) (hd : isBlank d = true) (rest : List Char) :
    tokens (c :: d :: rest) = [c] :: tokens rest := by
  rw [← tokens_blank_cons hd rest]
  simp [tokens, hc, hd]

/-- The last character of the text ends its token. -/
theorem tokens_singleton {c : Char} (hc : isBlank c = false) : tokens [c] = [[c]] := by
  simp [tokens, hc]

/-- Two neighbouring characters that are not whitespace are in one token. -/
theorem tokens_cons_cons {c d : Char} (hc : isBlank c = false) (hd : isBlank d = false) {rest t : List Char}
    {ts : List (List Char)} (h : tokens (d :: rest) = t :: ts) : tokens (c :: d :: rest) = (c :: t) :: ts := by
  rw [tokens.eq_def]
  simp [hc, hd, h]

/-- A line feed ends its line. -/
theorem splitLines_newline (rest : List Char) : splitLines ('\n' :: rest) = [] :: splitLines rest := by
  simp [splitLines]

/-- A character before a line feed joins the line the rest begins with. -/
theorem splitLines_cons {c : Char} (hc : c ≠ '\n') {rest line : List Char} {lines : List (List Char)}
    (h : splitLines rest = line :: lines) : splitLines (c :: rest) = (c :: line) :: lines := by
  simp [splitLines, hc, h]

/-- The last character of a text without a final line feed is on a line of its own so far. -/
theorem splitLines_singleton {c : Char} (hc : c ≠ '\n') : splitLines [c] = [[c]] := by
  simp [splitLines, hc]

theorem char_toNat_lt (c : Char) : c.toNat < 1114112 := by
  have h := c.valid
  simp only [UInt32.isValidChar, Nat.isValidChar] at h
  show c.val.toNat < _
  omega

/-- A character's code reads as that character where it is not below the least code of its form. -/
theorem utf8Scalar_toNat {c : Char} {least : Nat} (h : least ≤ c.toNat) : utf8Scalar least c.toNat = some c := by
  have hv : c.toNat.isValidChar := c.valid
  simp [utf8Scalar, h, hv]

theorem utf8Scalar_eq_some {least n : Nat} {c : Char} (h : utf8Scalar least n = some c) : least ≤ n ∧ c.toNat = n := by
  unfold utf8Scalar at h
  split at h
  · next hn => cases h; exact ⟨hn.1, by simp [Char.toNat_ofNat, hn.2]⟩
  · cases h

theorem beforeRest_eq_some {c : Option Char} {rest : Option (List Char)} {text : List Char} :
    beforeRest c rest = some text ↔ ∃ a cs, c = some a ∧ rest = some cs ∧ text = a :: cs := by
  cases c <;> cases rest <;> simp [beforeRest, eq_comm]

/-- The reader of UTF-8 takes off the bytes of one character. -/
theorem decodeUtf8_char (c : Char) (rest : List Byte) :
    decodeUtf8 (utf8Char c ++ rest) = (decodeUtf8 rest).map fun cs => c :: cs := by
  have hv := char_toNat_lt c
  have hs : ∀ least m, least ≤ c.toNat → m = c.toNat → utf8Scalar least m = some c :=
    fun _ _ h e => e ▸ utf8Scalar_toNat h
  have hb : ∀ m, m < 256 → (BitVec.ofNat 8 m).toNat = m := fun m h => Nat.mod_eq_of_lt h
  have hf : ∀ m, (BitVec.ofNat 8 (0x80 + m % 64)).toNat = 0x80 + m % 64 := fun m => hb _ (by omega)
  simp only [decodeUtf8, utf8Char]
  split_ifs with h1 h2 h3 <;> simp only [List.cons_append, List.nil_append]
  · rw [readUtf8]
    simp only [hb c.toNat (by omega)]
    rw [if_pos h1, hs _ _ (by omega) rfl]; rfl
  · rw [readUtf8]
    simp only [hb (0xC0 + c.toNat / 64) (by omega)]
    rw [if_neg (by omega), if_pos (by omega), readUtf8]
    simp only [hf]
    rw [if_pos (by omega), hs _ _ (by omega) (by omega)]; rfl
  · rw [readUtf8]
    simp only [hb (0xE0 + c.toNat / 4096) (by omega)]
    rw [if_neg (by omega), if_neg (by omega), if_pos (by omega), readUtf8]
    simp only [hf]
    rw [if_pos (by omega), readUtf8]
    simp only [hf]
    rw [if_pos (by omega), hs _ _ (by omega) (by omega)]; rfl
  · rw [readUtf8]
    simp only [hb (0xF0 + c.toNat / 262144) (by omega)]
    rw [if_neg (by omega), if_neg (by omega), if_neg (by omega), if_pos (by omega), readUtf8]
    simp only [hf]
    rw [if_pos (by omega), readUtf8]
    simp only [hf]
    rw [if_pos (by omega), readUtf8]
    simp only [hf]
    rw [if_pos (by omega), hs _ _ (by omega) (by omega)]; rfl

end Sys2Proof.Machine
end

