-- ==== Sys2Proof/Laws/Codec.lean ====
section
/-! SUPPORT. The field positions of a word as arithmetic (spec/30_encoding.md R51 to R55), and what the decoder and encoder
of instruction terms do with them. -/

namespace Sys2Proof

/-- Field A is the remainder by 16 (R94). -/
theorem fieldA_eq (v : Nat) : fieldA v = v % 16 := Nat.and_two_pow_sub_one_eq_mod v 4

/-- The operand is the quotient by 16 (R94). -/
theorem fieldHB_eq (v : Nat) : fieldHB v = v / 16 := Nat.shiftRight_eq_div_pow v 4

/-- The OR never overlaps the shifted operand and equals the sum (R90). -/
theorem wordOf_eq {opcode : Nat} (h : opcode < 16) (operand : Nat) : wordOf opcode operand = opcode + 16 * operand := by
  have := Nat.shiftLeft_add_eq_or_of_lt (i := 4) h operand
  rw [wordOf, Nat.or_comm, ← this, Nat.shiftLeft_eq]
  omega

/-- Byte `k` as arithmetic (R6). -/
theorem byteOf_toNat (v k : Nat) : (byteOf v k).toNat = v / 2 ^ (8 * k) % 256 := by
  simp [byteOf, Nat.shiftRight_eq_div_pow]

/-- The three bytes of a 24-bit value give it back (R34, R53). -/
theorem littleEndian_byteOf (v : Nat) : littleEndian (byteOf v 0) (byteOf v 1) (byteOf v 2) = v % 16777216 := by
  simp only [littleEndian, byteOf_toNat]
  omega

/-- A 3-byte slot has a 24-bit value (R53). -/
theorem littleEndian_lt (b0 b1 b2 : Byte) : littleEndian b0 b1 b2 < 16777216 := by
  have h0 := b0.isLt
  have h1 := b1.isLt
  have h2 := b2.isLt
  simp only [littleEndian]
  omega

/-- The value of a slot gives its bytes back (R52). -/
theorem byteOf_littleEndian (b0 b1 b2 : Byte) :
    byteOf (littleEndian b0 b1 b2) 0 = b0 ∧ byteOf (littleEndian b0 b1 b2) 1 = b1 ∧
      byteOf (littleEndian b0 b1 b2) 2 = b2 := by
  have h0 := b0.isLt
  have h1 := b1.isLt
  have h2 := b2.isLt
  refine ⟨?_, ?_, ?_⟩ <;>
  · apply BitVec.eq_of_toNat_eq
    simp only [byteOf_toNat, littleEndian]
    omega

/-- Field A of a term is a 4-bit number. -/
theorem Instr.opcode_lt (i : Instr) : i.opcode < 16 := by
  cases i <;> simp [Instr.opcode]

/-- The opcode map gives back the opcode and the operand (R56). -/
theorem instrOf_fields (opcode : Opcode) (b : Nat) :
    (instrOf opcode b).opcode = opcode.toNat ∧ (instrOf opcode b).operand = b := by
  obtain ⟨n, hn⟩ := opcode
  simp only [Nat.reducePow] at hn
  interval_cases n <;> exact ⟨rfl, rfl⟩

/-- A term is the opcode map's entry for its own opcode and operand (R56). -/
theorem instrOf_opcode (i : Instr) : instrOf (BitVec.ofNat 4 i.opcode) i.operand = i := by
  cases i <;> rfl

/-- A term's name is NAME_OF its opcode (R101). -/
theorem nameOf_opcode (i : Instr) : nameOf (BitVec.ofNat 4 i.opcode) = i.name := by
  cases i <;> rfl

/-- The decoder reads 3-byte sequences and nothing else (R94). -/
theorem decode_eq_ok {bytes : List Byte} {i : Instr} (h : decode bytes = .ok i) :
    ∃ b0 b1 b2, bytes = [b0, b1, b2] ∧
      i = instrOf (BitVec.ofNat 4 (fieldA (littleEndian b0 b1 b2))) (fieldHB (littleEndian b0 b1 b2)) := by
  unfold decode at h
  split at h
  · exact ⟨_, _, _, rfl, by simpa using h.symm⟩
  · simp at h

/-- The decoder refuses exactly the sequences whose length is not 3, with that length (R152). -/
theorem decode_eq_error {bytes : List Byte} {e : CodecError} :
    decode bytes = .error e ↔ bytes.length ≠ 3 ∧ e = .format bytes.length := by
  rcases bytes with _ | ⟨a, _ | ⟨b, _ | ⟨c, _ | ⟨d, rest⟩⟩⟩⟩ <;> simp [decode, eq_comm]

end Sys2Proof
end

