-- ==== Sys2Proof/Laws/State.lean ====
section
/-! SUPPORT. One lemma per field per update of the state, so that no later proof unfolds a record update; and what the
primitives that can fail leave (spec/10_state.md R17, spec/20_memory.md R39). -/

namespace Sys2Proof.Machine

variable (s t : State)

@[simp] theorem State.push_ip (v : Cell) : (s.push v).ip = s.ip := rfl
@[simp] theorem State.push_stack (v : Cell) : (s.push v).stack = v :: s.stack := rfl
@[simp] theorem State.push_mem (v : Cell) : (s.push v).mem = s.mem := rfl
@[simp] theorem State.push_status (v : Cell) : (s.push v).status = s.status := rfl
@[simp] theorem State.push_error (v : Cell) : (s.push v).error = s.error := rfl
@[simp] theorem State.push_trace (v : Cell) : (s.push v).trace = s.trace := rfl
@[simp] theorem State.push_image (v : Cell) : (s.push v).image = s.image := rfl
@[simp] theorem State.push_memSize (v : Cell) : (s.push v).memSize = s.memSize := rfl

@[simp] theorem State.recordStep_ip (n : OpName) (b : Nat) : (s.recordStep n b).ip = s.ip := rfl
@[simp] theorem State.recordStep_stack (n : OpName) (b : Nat) : (s.recordStep n b).stack = s.stack := rfl
@[simp] theorem State.recordStep_mem (n : OpName) (b : Nat) : (s.recordStep n b).mem = s.mem := rfl
@[simp] theorem State.recordStep_status (n : OpName) (b : Nat) : (s.recordStep n b).status = s.status := rfl
@[simp] theorem State.recordStep_error (n : OpName) (b : Nat) : (s.recordStep n b).error = s.error := rfl
@[simp] theorem State.recordStep_trace (n : OpName) (b : Nat) : (s.recordStep n b).trace = s.trace ++ [.step s.ip n b s.stack] := rfl
@[simp] theorem State.recordStep_image (n : OpName) (b : Nat) : (s.recordStep n b).image = s.image := rfl
@[simp] theorem State.recordStep_memSize (n : OpName) (b : Nat) : (s.recordStep n b).memSize = s.memSize := rfl

@[simp] theorem State.advance_ip : (s.advance).ip = s.ip + 1 := rfl
@[simp] theorem State.advance_stack : (s.advance).stack = s.stack := rfl
@[simp] theorem State.advance_mem : (s.advance).mem = s.mem := rfl
@[simp] theorem State.advance_status : (s.advance).status = s.status := rfl
@[simp] theorem State.advance_error : (s.advance).error = s.error := rfl
@[simp] theorem State.advance_trace : (s.advance).trace = s.trace := rfl
@[simp] theorem State.advance_image : (s.advance).image = s.image := rfl
@[simp] theorem State.advance_memSize : (s.advance).memSize = s.memSize := rfl

@[simp] theorem State.raise_ip (e : RunError) : (s.raise e).ip = s.ip := rfl
@[simp] theorem State.raise_stack (e : RunError) : (s.raise e).stack = s.stack := rfl
@[simp] theorem State.raise_mem (e : RunError) : (s.raise e).mem = s.mem := rfl
@[simp] theorem State.raise_status (e : RunError) : (s.raise e).status = .haltedError := rfl
@[simp] theorem State.raise_error (e : RunError) : (s.raise e).error = some ⟨e, s.ip⟩ := rfl
@[simp] theorem State.raise_trace (e : RunError) : (s.raise e).trace = s.trace ++ [.error s.ip e] := rfl
@[simp] theorem State.raise_image (e : RunError) : (s.raise e).image = s.image := rfl
@[simp] theorem State.raise_memSize (e : RunError) : (s.raise e).memSize = s.memSize := rfl

@[simp] theorem State.complete_ip : (s.complete).ip = s.ip := rfl
@[simp] theorem State.complete_stack : (s.complete).stack = s.stack := rfl
@[simp] theorem State.complete_mem : (s.complete).mem = s.mem := rfl
@[simp] theorem State.complete_status : (s.complete).status = .completed := rfl
@[simp] theorem State.complete_error : (s.complete).error = s.error := rfl
@[simp] theorem State.complete_trace : (s.complete).trace = s.trace := rfl
@[simp] theorem State.complete_image : (s.complete).image = s.image := rfl
@[simp] theorem State.complete_memSize : (s.complete).memSize = s.memSize := rfl

@[simp] theorem State.start_ip (image : List Byte) (size : Nat) (mem0 : Memory) :
    (State.start image size mem0).ip = 0 := rfl
@[simp] theorem State.start_stack (image : List Byte) (size : Nat) (mem0 : Memory) :
    (State.start image size mem0).stack = [] := rfl
@[simp] theorem State.start_mem (image : List Byte) (size : Nat) (mem0 : Memory) :
    (State.start image size mem0).mem = mem0 := rfl
@[simp] theorem State.start_status (image : List Byte) (size : Nat) (mem0 : Memory) :
    (State.start image size mem0).status = .running := rfl
@[simp] theorem State.start_error (image : List Byte) (size : Nat) (mem0 : Memory) :
    (State.start image size mem0).error = none := rfl
@[simp] theorem State.start_trace (image : List Byte) (size : Nat) (mem0 : Memory) :
    (State.start image size mem0).trace = [] := rfl
@[simp] theorem State.start_image (image : List Byte) (size : Nat) (mem0 : Memory) :
    (State.start image size mem0).image = image := rfl
@[simp] theorem State.start_memSize (image : List Byte) (size : Nat) (mem0 : Memory) :
    (State.start image size mem0).memSize = size := rfl

/-- Reset is the start of a run with the empty image, the default memory size and nothing preset. -/
theorem State.reset_eq_start : State.reset = State.start [] Config.defaultMemSize [] := rfl

/-! ## The primitives that can fail -/

variable {s t}

/-- `pop` answers the head of the stack and the state without it; nothing else changes. -/
theorem State.pop_eq_ok {v : Cell} :
    s.pop = .ok (v, t) ↔ ∃ rest, s.stack = v :: rest ∧ t = { s with stack := rest } := by
  unfold State.pop
  cases h : s.stack <;> simp [eq_comm]

/-- `pop` fails exactly on the empty stack, with StackUnderflowError. -/
theorem State.pop_eq_error {e : RunError} : s.pop = .error e ↔ s.stack = [] ∧ e = .stackUnderflow := by
  unfold State.pop
  cases h : s.stack <;> simp [eq_comm]

/-- The range test as a proposition (R39). -/
theorem State.inRange_iff {addr : Int} : s.inRange addr = true ↔ 0 ≤ addr ∧ addr < s.memSize := by
  simp [State.inRange]

/-- Everything `memRead` can do (R39). -/
theorem State.memRead_cases (s : State) (addr : Int) :
    (s.inRange addr = true ∧ s.memRead addr = .ok (Memory.read s.mem addr.toNat)) ∨
    (s.inRange addr = false ∧ s.memRead addr = .error (.addressRange addr)) := by
  unfold State.memRead
  cases s.inRange addr <;> simp

/-- Everything `memWrite` can do (R39). -/
theorem State.memWrite_cases (s : State) (addr : Int) (v : Cell) :
    (s.inRange addr = true ∧ s.memWrite addr v = .ok { s with mem := Memory.write s.mem addr.toNat v }) ∨
    (s.inRange addr = false ∧ s.memWrite addr v = .error (.addressRange addr)) := by
  unfold State.memWrite
  cases s.inRange addr <;> simp

/-- Everything `memRead` does with an instruction's address: only the upper bound can fail (R39). -/
theorem State.memRead_effectiveAddress (b : Nat) :
    s.memRead (effectiveAddress b) =
      if b < s.memSize then .ok (Memory.read s.mem b) else .error (.addressRange b) := by
  by_cases h : b < s.memSize <;> simp [State.memRead, State.inRange, effectiveAddress, h]

/-- Everything `memWrite` does with an instruction's address (R39). -/
theorem State.memWrite_effectiveAddress (b : Nat) (v : Cell) :
    s.memWrite (effectiveAddress b) v =
      if b < s.memSize then .ok { s with mem := Memory.write s.mem b v } else .error (.addressRange b) := by
  by_cases h : b < s.memSize <;> simp [State.memWrite, State.inRange, effectiveAddress, h]

/-- `settle` always answers a next state: the error taken, or the new state advanced. -/
theorem settle_eq_next {r : Except RunError State} :
    settle s r = .next t ↔ (∃ e, r = .error e ∧ t = s.raise e) ∨ (∃ u, r = .ok u ∧ t = u.advance) := by
  cases r <;> simp [settle, eq_comm]

end Sys2Proof.Machine
end

