-- ==== Sys2Proof/Laws/Step.lean ====
section
/-! SUPPORT. Said once: everything an instruction can do, and everything a step can do (spec/41_coded_instructions.md R120
to R125). -/

namespace Sys2Proof.Machine

variable {s t : State}

/-- Everything `load_const` can do (R122). -/
theorem execLoadConst_cases {b : Nat} (h : execLoadConst b s = .next t) :
    t = ((s.recordStep .loadConst b).push (immediate b)).advance := by
  simpa [execLoadConst, settle] using h.symm

/-- Everything `read_value` can do (R123). -/
theorem execReadValue_cases {b : Nat} (h : execReadValue b s = .next t) :
    (b < s.memSize ∧ t = ((s.recordStep .readValue b).push (Memory.read s.mem b)).advance) ∨
    (s.memSize ≤ b ∧ t = (s.recordStep .readValue b).raise (.addressRange b)) := by
  by_cases hb : b < s.memSize <;>
    simp only [execReadValue, State.memRead_effectiveAddress, State.recordStep_memSize, hb, ↓reduceIte, Except.map, settle,
      Host.Outcome.next.injEq] at h
  · exact .inl ⟨hb, h.symm⟩
  · exact .inr ⟨by omega, h.symm⟩

/-- Everything `write_value` can do (R124). -/
theorem execWriteValue_cases {b : Nat} (h : execWriteValue b s = .next t) :
    (s.stack = [] ∧ t = (s.recordStep .writeValue b).raise .stackUnderflow) ∨
    (∃ v rest, s.stack = v :: rest ∧ b < s.memSize ∧
      t = State.advance { s.recordStep .writeValue b with stack := rest, mem := Memory.write s.mem b v }) ∨
    (∃ v rest, s.stack = v :: rest ∧ s.memSize ≤ b ∧
      t = State.raise { s.recordStep .writeValue b with stack := rest } (.addressRange b)) := by
  unfold execWriteValue at h
  cases hs : s.stack with
  | nil => exact .inl ⟨rfl, by simpa [State.pop, hs, settle] using h.symm⟩
  | cons v rest =>
    simp only [State.pop, State.recordStep_stack, hs, State.memWrite_effectiveAddress, State.recordStep_memSize] at h
    split at h <;> simp only [settle, Host.Outcome.next.injEq] at h
    · exact .inr (.inl ⟨v, rest, rfl, ‹_›, h.symm⟩)
    · exact .inr (.inr ⟨v, rest, rfl, by omega, h.symm⟩)

/-- Everything `sgn` can do (R125). -/
theorem execSgn_cases {b : Nat} (h : execSgn b s = .next t) :
    (b < s.memSize ∧ t = ((s.recordStep .sgn b).push (signOf (Memory.read s.mem b))).advance) ∨
    (s.memSize ≤ b ∧ t = (s.recordStep .sgn b).raise (.addressRange b)) := by
  by_cases hb : b < s.memSize <;>
    simp only [execSgn, State.memRead_effectiveAddress, State.recordStep_memSize, hb, ↓reduceIte, Except.map, settle,
      Host.Outcome.next.injEq] at h
  · exact .inl ⟨hb, h.symm⟩
  · exact .inr ⟨by omega, h.symm⟩

/-- A word that selects no instruction halts the run in place (R57, R153). -/
theorem exec_of_name_none {i : Instr} (hi : i.name = none) (h : exec i s = .next t) :
    t = s.raise (.codec (.unknownOpcode (BitVec.ofNat 4 i.opcode))) := by
  cases i <;> simp only [Instr.name, reduceCtorEq] at hi <;> exact (Host.Outcome.next.inj h).symm

/-- Everything a step can do (R120). -/
theorem step_cases (h : step s = .next t) :
    s.status = .running ∧
      ((instructionCount s.image ≤ s.ip ∧ t = s.complete) ∨
       (s.ip < instructionCount s.image ∧ ∃ e, decode s.fetch = .error e ∧ t = s.raise (.codec e)) ∨
       (s.ip < instructionCount s.image ∧ ∃ i, decode s.fetch = .ok i ∧ exec i s = .next t)) := by
  unfold step at h
  cases hst : s.status <;> simp only [hst, reduceCtorEq] at h
  refine ⟨rfl, ?_⟩
  by_cases hend : instructionCount s.image ≤ s.ip
  · simp only [State.atEnd, hend, decide_true, ↓reduceIte, Host.Outcome.next.injEq] at h
    exact .inl ⟨hend, h.symm⟩
  · simp only [State.atEnd, hend, decide_false, Bool.false_eq_true, ↓reduceIte] at h
    cases hd : decode s.fetch <;> simp only [hd] at h
    · exact .inr (.inl ⟨by omega, _, rfl, (Host.Outcome.next.inj h).symm⟩)
    · exact .inr (.inr ⟨by omega, _, rfl, h⟩)

end Sys2Proof.Machine
end

