-- ==== Sys2Proof/Laws/Fetch.lean ====
section
/-! SUPPORT. What `withFetchWord` places is what the next step fetches and runs (spec/20_memory.md R32). -/

namespace Sys2Proof.Machine

/-- The slot a word was placed in holds its three bytes. -/
theorem slot_placeWord (image : List Byte) (i v : Nat) :
    slot (placeWord image i v) i = [byteOf v 0, byteOf v 1, byteOf v 2] := by
  have hlen : ((image ++ List.replicate (3 * i - image.length) 0).take (3 * i)).length = 3 * i := by
    simp
    omega
  rw [slot, imgRead, placeWord, List.append_assoc, List.drop_append, hlen]
  simp

/-- An image a word was placed in has a slot there. -/
theorem lt_instructionCount_placeWord (image : List Byte) (i v : Nat) : i < instructionCount (placeWord image i v) := by
  simp [instructionCount, placeWord]
  omega

/-- The next step runs the word that `withFetchWord` placed. -/
theorem step_withFetchWord (s : State) (w : Nat) :
    ∃ i, decodeTableWord 24 w = some i ∧ step (s.withFetchWord 24 w) = exec i (s.withFetchWord 24 w) := by
  have hend : (s.withFetchWord 24 w).atEnd = false :=
    decide_eq_false (Nat.not_le.mpr (lt_instructionCount_placeWord s.image s.ip (w % 2 ^ 24)))
  have hfetch : (s.withFetchWord 24 w).fetch = [byteOf (w % 2 ^ 24) 0, byteOf (w % 2 ^ 24) 1, byteOf (w % 2 ^ 24) 2] :=
    slot_placeWord _ _ _
  refine ⟨_, rfl, ?_⟩
  unfold step
  rw [hend, hfetch]
  rfl

end Sys2Proof.Machine
end

