-- ==== Sys2Proof/Laws/Memory.lean ====
section
/-! SUPPORT. The laws of the data memory (spec/20_memory.md R39): every operation keeps the canonical form, a read after a
write to the same cell gives the value written, and a write leaves every other cell alone. -/

namespace Sys2Proof.Machine

/-- Every listed address lies above `a`. -/
def Memory.above (a : Nat) (m : Memory) : Prop := ∀ c ∈ m, a < c.1

theorem Memory.wf_cons {k : Nat} {v : Cell} {rest : Memory} :
    Memory.wf ((k, v) :: rest) = true ↔ v ≠ 0 ∧ Memory.above k rest ∧ Memory.wf rest = true := by
  induction rest generalizing k v with
  | nil => simp [Memory.wf, Memory.above]
  | cons c rest ih =>
    obtain ⟨k', v'⟩ := c
    simp only [Memory.wf, Bool.and_eq_true, decide_eq_true_eq]
    constructor
    · rintro ⟨⟨hv, hk⟩, hwf⟩
      refine ⟨hv, ?_, hwf⟩
      intro c hc
      rcases List.mem_cons.mp hc with rfl | hc
      · exact hk
      · exact hk.trans ((ih.mp hwf).2.1 c hc)
    · rintro ⟨hv, habove, hwf⟩
      exact ⟨⟨hv, habove _ (List.mem_cons_self ..)⟩, hwf⟩

/-- A cell below every listed address reads 0. -/
theorem Memory.read_of_above {m : Memory} {a b : Nat} (h : Memory.above b m) (hab : a ≤ b) : Memory.read m a = 0 := by
  induction m with
  | nil => rfl
  | cons c rest ih =>
    obtain ⟨k, v⟩ := c
    have hk : b < k := h _ (List.mem_cons_self ..)
    rw [Memory.read, if_neg (by omega), ih fun c hc => h c (List.mem_cons_of_mem _ hc)]

/-- What a write can list: the value written, or what was listed before. -/
theorem Memory.mem_write {m : Memory} {a : Nat} {v : Cell} {c : Nat × Cell} (h : c ∈ Memory.write m a v) :
    c = (a, v) ∨ c ∈ m := by
  induction m with
  | nil =>
    unfold Memory.write at h
    split at h <;> simp_all
  | cons d rest ih =>
    obtain ⟨k, w⟩ := d
    unfold Memory.write at h
    split_ifs at h <;> simp_all <;> tauto

theorem Memory.above_write {m : Memory} {a b : Nat} {v : Cell} (h : Memory.above b m) (hab : b < a) :
    Memory.above b (Memory.write m a v) := by
  intro c hc
  rcases Memory.mem_write hc with rfl | hc
  · exact hab
  · exact h c hc

/-- A write keeps the canonical form. -/
theorem Memory.wf_write {m : Memory} (h : Memory.wf m = true) (a : Nat) (v : Cell) :
    Memory.wf (Memory.write m a v) = true := by
  induction m with
  | nil =>
    unfold Memory.write
    split <;> simp_all [Memory.wf]
  | cons c rest ih =>
    obtain ⟨k, w⟩ := c
    obtain ⟨hw, hk, hrest⟩ := Memory.wf_cons.mp h
    unfold Memory.write
    split_ifs with h1 h2 h3 h4
    · exact h
    · refine Memory.wf_cons.mpr ⟨h2, ?_, h⟩
      intro c hc
      rcases List.mem_cons.mp hc with rfl | hc
      · exact h1
      · exact h1.trans (hk c hc)
    · exact hrest
    · exact Memory.wf_cons.mpr ⟨h4, h3 ▸ hk, hrest⟩
    · exact Memory.wf_cons.mpr ⟨hw, Memory.above_write hk (by omega), ih hrest⟩

/-- The memory a list of presets leaves is canonical (R183). -/
theorem Memory.wf_ofPresets (presets : List (Nat × Cell)) : Memory.wf (Memory.ofPresets presets) = true := by
  unfold Memory.ofPresets
  suffices h : ∀ m, Memory.wf m = true →
      Memory.wf (presets.foldl (fun m c => Memory.write m c.1 c.2) m) = true from h [] rfl
  induction presets with
  | nil => exact fun _ h => h
  | cons c rest ih => exact fun m h => ih _ (Memory.wf_write h c.1 c.2)

/-- A cell reads back what was written to it. -/
theorem Memory.read_write_same {m : Memory} (h : Memory.wf m = true) (a : Nat) (v : Cell) :
    Memory.read (Memory.write m a v) a = v := by
  induction m with
  | nil =>
    unfold Memory.write
    split <;> simp_all [Memory.read]
  | cons c rest ih =>
    obtain ⟨k, w⟩ := c
    obtain ⟨hw, hk, hrest⟩ := Memory.wf_cons.mp h
    unfold Memory.write
    split_ifs with h1 h2 h3 h4
    · have : Memory.above a ((k, w) :: rest) := by
        intro c hc
        rcases List.mem_cons.mp hc with rfl | hc
        · exact h1
        · exact h1.trans (hk c hc)
      rw [h2, Memory.read_of_above this le_rfl]
    · simp [Memory.read]
    · rw [h4, Memory.read_of_above hk (by omega)]
    · simp [Memory.read]
    · rw [Memory.read, if_neg (by omega), ih hrest]

/-- A write leaves every other cell alone. -/
theorem Memory.read_write_other {m : Memory} (h : Memory.wf m = true) {a b : Nat} (hab : b ≠ a) (v : Cell) :
    Memory.read (Memory.write m a v) b = Memory.read m b := by
  induction m with
  | nil =>
    unfold Memory.write
    split <;> simp [Memory.read, hab.symm]
  | cons c rest ih =>
    obtain ⟨k, w⟩ := c
    obtain ⟨hw, hk, hrest⟩ := Memory.wf_cons.mp h
    unfold Memory.write
    split_ifs with h1 h2 h3 h4
    · rfl
    · simp [Memory.read, hab.symm]
    · subst h3
      simp [Memory.read, hab.symm]
    · subst h3
      simp [Memory.read, hab.symm]
    · simp only [Memory.read, ih hrest]

/-- A write inside the memory keeps every listed cell inside it. -/
theorem Memory.fits_write {m : Memory} {size a : Nat} (h : Memory.fits size m = true) (ha : a < size) (v : Cell) :
    Memory.fits size (Memory.write m a v) = true := by
  simp only [Memory.fits, List.all_eq_true, decide_eq_true_eq] at h ⊢
  intro c hc
  rcases Memory.mem_write hc with rfl | hc
  · exact ha
  · exact h c hc

/-- A value read is 0 or a listed value. -/
theorem Memory.read_mem (m : Memory) (a : Nat) : Memory.read m a = 0 ∨ (a, Memory.read m a) ∈ m := by
  induction m with
  | nil => exact .inl rfl
  | cons c rest ih =>
    obtain ⟨k, v⟩ := c
    simp only [Memory.read]
    split_ifs with h
    · exact .inr (by simp [h])
    · exact ih.imp id (List.mem_cons_of_mem _)

/-- The memory after reset is canonical and within its size. -/
theorem State.reset_mem_ok : Memory.wf State.reset.mem = true ∧ Memory.fits State.reset.memSize State.reset.mem = true :=
  ⟨rfl, rfl⟩

end Sys2Proof.Machine
end

