-- ==== Sys2Proof/Laws/PerInstr.lean ====
section
/-! SUPPORT. One family over the instructions as syntax: the shape of every encoding (spec/30_encoding.md R50, R52). -/

namespace Sys2Proof.Laws

/-- The encoding is exactly 3 bytes (R50), and the low nibble of byte 0 is field A (R52). -/
def EncodedShape.Statement (i : Instr) : Prop :=
  ∃ b0 b1 b2, encode i = [b0, b1, b2] ∧ b0.toNat % 16 = i.opcode

/-- The shape follows from the word's own arithmetic, whatever the instruction. -/
theorem encode_shape (i : Instr) : EncodedShape.Statement i := by
  refine ⟨_, _, _, rfl, ?_⟩
  have h := i.opcode_lt
  rw [byteOf_toNat, wordOf_eq h]
  omega

theorem EncodedShape.loadConst (b : Nat) : EncodedShape.Statement (.loadConst b) := encode_shape _
theorem EncodedShape.readValue (b : Nat) : EncodedShape.Statement (.readValue b) := encode_shape _
theorem EncodedShape.writeValue (b : Nat) : EncodedShape.Statement (.writeValue b) := encode_shape _
theorem EncodedShape.sgn (b : Nat) : EncodedShape.Statement (.sgn b) := encode_shape _
theorem EncodedShape.unrecognised0 (b : Nat) : EncodedShape.Statement (.unrecognised0 b) := encode_shape _
theorem EncodedShape.unrecognised1 (b : Nat) : EncodedShape.Statement (.unrecognised1 b) := encode_shape _
theorem EncodedShape.unrecognised2 (b : Nat) : EncodedShape.Statement (.unrecognised2 b) := encode_shape _
theorem EncodedShape.unrecognised3 (b : Nat) : EncodedShape.Statement (.unrecognised3 b) := encode_shape _
theorem EncodedShape.unrecognised5 (b : Nat) : EncodedShape.Statement (.unrecognised5 b) := encode_shape _
theorem EncodedShape.unrecognised6 (b : Nat) : EncodedShape.Statement (.unrecognised6 b) := encode_shape _
theorem EncodedShape.unrecognised8 (b : Nat) : EncodedShape.Statement (.unrecognised8 b) := encode_shape _
theorem EncodedShape.unrecognised9 (b : Nat) : EncodedShape.Statement (.unrecognised9 b) := encode_shape _
theorem EncodedShape.unrecognised10 (b : Nat) : EncodedShape.Statement (.unrecognised10 b) := encode_shape _
theorem EncodedShape.unrecognised12 (b : Nat) : EncodedShape.Statement (.unrecognised12 b) := encode_shape _
theorem EncodedShape.unrecognised13 (b : Nat) : EncodedShape.Statement (.unrecognised13 b) := encode_shape _
theorem EncodedShape.unrecognised15 (b : Nat) : EncodedShape.Statement (.unrecognised15 b) := encode_shape _

end Sys2Proof.Laws
end

