-- ==== Sys2Proof/Tests/Slice0.lean ====
section
/-! SUPPORT. Small tests, their expected results taken from the vectors of spec/95_test_vectors.md (named V-…, S…, P…) or
worked out by hand from the encoding of spec/30_encoding.md R51, and a witness for the hypotheses of every obligation. -/

namespace Sys2Proof.Tests

open Sys2Proof Sys2Proof.Machine

/-! ## Well-formedness: each check refuses an ill-formed term -/

/-- The operand has 20 bits (R55): 1048576 does not fit, 1048575 does. -/
theorem test_wellFormed_operand :
    ¬(Instr.loadConst 1048576).WellFormed ∧ (Instr.loadConst 1048575).WellFormed ∧
      ¬(Instr.unrecognised15 1048576).WellFormed := by decide

/-- A canonical word has H = 0 (R58). -/
theorem test_canonical_operand : ¬(Instr.sgn 32768).Canonical ∧ (Instr.sgn 32767).Canonical := by decide

/-- A canonical word has a recognised opcode (R58). -/
theorem test_canonical_opcode : ¬(Instr.unrecognised0 0).Canonical := by decide

/-! ## Decoding: every row of the opcode table by a word written out from its encoding -/

/-- S1, `hhhhhbbbbbbbbbbbbbbb1110`: v = 0x0033FE. -/
theorem test_decode_loadConst : decode [0xFE, 0x33, 0x00] = .ok (.loadConst 831) := by decide

/-- S2, `hhhhhbbbbbbbbbbbbbbb1011`: v = 0x00061B. -/
theorem test_decode_readValue : decode [0x1B, 0x06, 0x00] = .ok (.readValue 97) := by decide

/-- S3, `hhhhhbbbbbbbbbbbbbbb0111`: v = 0x001237. -/
theorem test_decode_writeValue : decode [0x37, 0x12, 0x00] = .ok (.writeValue 291) := by decide

/-- S4, `hhhhhbbbbbbbbbbbbbbb0100`: v = 0x0009E4. -/
theorem test_decode_sgn : decode [0xE4, 0x09, 0x00] = .ok (.sgn 158) := by decide

/-- V-D12: all of bits 23 to 4 are the operand, 0x6E5E4 = 452068. -/
theorem test_decode_allOperandBits : decode [0x4E, 0x5E, 0x6E] = .ok (.loadConst 452068) := by decide

/-- V-D15, A = 0. -/
theorem test_decode_unrecognised0 : decode [0xE0, 0x00, 0x00] = .ok (.unrecognised0 14) := by decide

/-- V-D20, A = 1. -/
theorem test_decode_unrecognised1 : decode [0x11, 0x00, 0x00] = .ok (.unrecognised1 1) := by decide

/-- V-D20, A = 2. -/
theorem test_decode_unrecognised2 : decode [0x22, 0x00, 0x00] = .ok (.unrecognised2 2) := by decide

/-- V-D20, A = 3. -/
theorem test_decode_unrecognised3 : decode [0x33, 0x00, 0x00] = .ok (.unrecognised3 3) := by decide

/-- V-D20, A = 5. -/
theorem test_decode_unrecognised5 : decode [0x55, 0x00, 0x00] = .ok (.unrecognised5 5) := by decide

/-- V-D20, A = 6. -/
theorem test_decode_unrecognised6 : decode [0x66, 0x00, 0x00] = .ok (.unrecognised6 6) := by decide

/-- V-D20, A = 8. -/
theorem test_decode_unrecognised8 : decode [0x88, 0x00, 0x00] = .ok (.unrecognised8 8) := by decide

/-- V-D20, A = 9. -/
theorem test_decode_unrecognised9 : decode [0x99, 0x00, 0x00] = .ok (.unrecognised9 9) := by decide

/-- V-D20, A = 10. -/
theorem test_decode_unrecognised10 : decode [0xAA, 0x00, 0x00] = .ok (.unrecognised10 10) := by decide

/-- V-D20, A = 12. -/
theorem test_decode_unrecognised12 : decode [0xCC, 0x00, 0x00] = .ok (.unrecognised12 12) := by decide

/-- V-D20, A = 13. -/
theorem test_decode_unrecognised13 : decode [0xDD, 0x00, 0x00] = .ok (.unrecognised13 13) := by decide

/-- V-D19, A = 15. -/
theorem test_decode_unrecognised15 : decode [0xFF, 0xFF, 0xFF] = .ok (.unrecognised15 1048575) := by decide

/-- V-D22, V-D24: a length other than 3. -/
theorem test_decode_length :
    decode [0xFE] = .error (.format 1) ∧ decode [0xFE, 0x33, 0x00, 0x00] = .error (.format 4) := by decide

/-- The table's numbering of a word's bits (S4). -/
theorem test_decodeTableWord : decodeTableWord 24 0x0009E4 = some (.sgn 158) := by decide

/-! ## ENCODE and DECODE -/

/-- V-E17, V-E13, V-E30, V-E29, V-E24. -/
theorem test_encode :
    Codec.encode 14 21845 = .ok (0x5E, 0x55, 0x05) ∧ Codec.encode 14 32767 = .ok (0xFE, 0xFF, 0x07) ∧
    Codec.encode 31 0 = .error ⟨true, false⟩ ∧ Codec.encode 16 32768 = .error ⟨true, true⟩ ∧
    Codec.encode (-1) 0 = .error ⟨true, false⟩ := by decide

/-- V-D10, V-D13, V-D16, V-D25. -/
theorem test_decode :
    Codec.decode [0x07, 0x00, 0xF8] = .ok (7, 1015808) ∧ Codec.decode [0xB4, 0xB7, 0xBB] = .ok (4, 768891) ∧
    Codec.decode [0x10, 0x00, 0x00] = .error (.unknownOpcode 0) ∧ Codec.decode [0x0F] = .error (.format 1) := by decide

/-- The ports of ENC for S3 and V-E28, at the default width. -/
theorem test_enc :
    enc 7 291 = ⟨true, 0, false, false, some (0x37, 0x12, 0x00)⟩ ∧
    enc 14 99999 = ⟨false, 1, false, true, none⟩ ∧ enc (-1) 0 = ⟨false, 1, true, false, none⟩ := by decide

/-- The ports of DEC for V-D9, V-D14 and V-D23. -/
theorem test_dec :
    decUnit 3 0x0B 0x00 0x80 = ⟨true, 0, some 11, some 524288, some 1⟩ ∧
    decUnit 3 0x00 0x00 0x00 = ⟨false, 3, some 0, none, none⟩ ∧
    decUnit 2 0xFE 0x33 0x00 = ⟨false, 2, none, none, none⟩ := by decide

/-! ## One step of each instruction (spec/95 section 2.5) -/

/-- A running machine at slot 0 with 2048 cells. -/
def machine (image : List Byte) (stack : List Cell) (mem : Memory) : State :=
  { State.start image 2048 mem with stack := stack }

/-- The parts of the state after a step that an instruction can change. -/
def after (s : State) : Option (Nat × List Cell × Memory × Status) :=
  match step s with
  | .next t => some (t.ip, t.stack, t.mem, t.status)
  | .fault _ => none
  | .refused _ => none

/-- The error a step records. -/
def errorAfter (s : State) : Option ErrorReport :=
  match step s with
  | .next t => t.error
  | .fault _ => none
  | .refused _ => none

/-- The trace after a step. -/
def traceAfter (s : State) : Option (List TraceEntry) :=
  match step s with
  | .next t => some t.trace
  | .fault _ => none
  | .refused _ => none

/-- V-I2. -/
theorem test_load_const_max :
    after (machine [0xFE, 0xFF, 0x07] [9] []) = some (1, [32767, 9], [], .running) := by decide

/-- V-I3: a non-canonical word. -/
theorem test_load_const_noncanonical :
    after (machine [0xFE, 0xFF, 0xFF] [] []) = some (1, [1048575], [], .running) := by decide

/-- V-I5: a negative preset at the last address. -/
theorem test_read_value_last :
    after (machine [0xFB, 0x7F, 0x00] [] [(2047, -3)]) = some (1, [-3], [(2047, -3)], .running) := by decide

/-- V-I6: the first address beyond the memory. -/
theorem test_read_value_outside :
    after (machine [0x0B, 0x80, 0x00] [4] []) = some (0, [4], [], .haltedError) ∧
    errorAfter (machine [0x0B, 0x80, 0x00] [4] []) = some ⟨.addressRange 2048, 0⟩ := by decide

/-- V-I8: the top is 2, and the cell held 9. -/
theorem test_write_value_top :
    after (machine [0xA7, 0x00, 0x00] [2, 1] [(10, 9)]) = some (1, [1], [(10, 2)], .running) := by decide

/-- V-I10: the popped 2 is lost. -/
theorem test_write_value_outside :
    after (machine [0x87, 0x38, 0x01] [2, 1] []) = some (0, [1], [], .haltedError) ∧
    errorAfter (machine [0x87, 0x38, 0x01] [2, 1] []) = some ⟨.addressRange 5000, 0⟩ := by decide

/-- V-I11: underflow comes before the address. -/
theorem test_write_value_underflow :
    errorAfter (machine [0x87, 0x38, 0x01] [] []) = some ⟨.stackUnderflow, 0⟩ := by decide

/-- V-I12, S9. -/
theorem test_sgn_negative :
    after (machine [0x34, 0x00, 0x00] [] [(3, -7)]) = some (1, [-1], [(3, -7)], .running) := by decide

/-- V-I13: nothing is popped. -/
theorem test_sgn_zero : after (machine [0x34, 0x00, 0x00] [8] []) = some (1, [0, 8], [], .running) := by decide

/-- V-I19: an illegal word; no step entry in the trace. -/
theorem test_unrecognised :
    after (machine [0x0F, 0x00, 0x00] [5] []) = some (0, [5], [], .haltedError) ∧
    traceAfter (machine [0x0F, 0x00, 0x00] [5] []) = some [.error 0 (.codec (.unknownOpcode 15))] := by decide

/-- S11: the step entry stands before the error entry. -/
theorem test_trace_of_failing_write :
    traceAfter (machine [0x07, 0x00, 0x00] [] []) =
      some [.step 0 .writeValue 0 [], .error 0 .stackUnderflow] := by decide

/-- P7: a leftover slot of 2 bytes. -/
theorem test_truncated_slot : errorAfter (machine [0x07, 0x00] [] []) = some ⟨.codec (.format 2), 0⟩ := by decide

/-- P9: the empty program completes at once; from reset that is the first step. -/
theorem test_reset_completes : step State.reset = .next { State.reset with status := .completed } := by rfl

/-- Storing 0 over a listed cell removes its entry. -/
theorem test_write_zero : Memory.write [(3, 7), (9, 1)] 3 0 = [(9, 1)] := by decide

/-! ## Assembler (spec/95 section 2.4) -/

/-- V-A1, S8. -/
theorem test_assemble :
    assemble "load_const 5\nwrite_value 0\n".toList =
      .ok ([0x5E, 0x00, 0x00, 0x07, 0x00, 0x00], [(.loadConst, 5), (.writeValue, 0)]) := by decide

/-- V-A3, V-A4, V-A5, V-A8. -/
theorem test_parse_spacing :
    parseLine 1 "  sgn   3   # sign of cell 3".toList = .ok (some ⟨1, .sgn, 3⟩) ∧
    parseLine 1 "read_value\t97".toList = .ok (some ⟨1, .readValue, 97⟩) ∧
    parseLine 1 "sgn 3#x".toList = .ok (some ⟨1, .sgn, 3⟩) ∧
    parseLine 1 "load_const +5".toList = .ok (some ⟨1, .loadConst, 5⟩) := by decide

/-- V-A9, V-A10, V-A12, V-A15, V-A16. -/
theorem test_parse_errors :
    parseLine 1 "sgn".toList = .error ⟨1, .tokenCount⟩ ∧ parseLine 1 "sgn 1 2".toList = .error ⟨1, .tokenCount⟩ ∧
    parseLine 1 "load_const 0x10".toList = .error ⟨1, .badLiteral "0x10".toList⟩ ∧
    parseLine 1 "SGN 3".toList = .error ⟨1, .unknownCommand "SGN".toList⟩ ∧
    parseLine 1 "foo bar".toList = .error ⟨1, .badLiteral "bar".toList⟩ := by decide

/-- V-A11: skipped lines still count. -/
theorem test_line_numbers : assemble "\n\nload_const x".toList = .error ⟨3, .badLiteral ['x']⟩ := by decide

/-- V-A18, V-A20: the encode phase comes second. -/
theorem test_two_phases :
    assemble "load_const -7".toList = .error ⟨1, .range ⟨false, true⟩⟩ ∧
    assemble "load_const 99999\nfoo 1".toList = .error ⟨2, .unknownCommand "foo".toList⟩ := by decide

/-- Hand calculation from RFC 3629 and its example (section 7) with one character of each length. -/
theorem test_utf8 :
    decodeUtf8 [0x41, 0xE2, 0x89, 0xA2, 0xCE, 0x91, 0x2E, 0xF0, 0xA3, 0x8E, 0xB4] = some ['A', '≢', 'Α', '.', '𣎴'] ∧
    encodeUtf8 ['A', '≢', 'Α', '.', '𣎴'] = [0x41, 0xE2, 0x89, 0xA2, 0xCE, 0x91, 0x2E, 0xF0, 0xA3, 0x8E, 0xB4] := by decide

/-- RFC 3629: an overlong form, a surrogate, a code beyond 10FFFF, a lone following byte, a character cut off. -/
theorem test_utf8_malformed :
    decodeUtf8 [0xC0, 0x80] = none ∧ decodeUtf8 [0xED, 0xA0, 0x80] = none ∧ decodeUtf8 [0xF4, 0x90, 0x80, 0x80] = none ∧
    decodeUtf8 [0x80] = none ∧ decodeUtf8 [0xC3] = none := by decide

/-- V-A1's form with a comment that is not ASCII: "sgn 3 #" and then e with an acute accent. -/
theorem test_assembleBytes :
    assembleBytes [0x73, 0x67, 0x6E, 0x20, 0x33, 0x20, 0x23, 0xC3, 0xA9] = some (.ok ([0x34, 0x00, 0x00], [(.sgn, 3)])) ∧
    assembleBytes [0x73, 0x67, 0x6E, 0x20, 0x33, 0x20, 0x23, 0xC3] = none := by decide

/-- R74, for V-D1. -/
theorem test_disassemble : disassemble (.loadConst 831) = some "load_const 831".toList := by decide

/-! ## Witnesses: for every obligation with hypotheses, values that meet them, at the bounds of their ranges -/

theorem witness_EncodeGivesWordOrRangeError :
    ((0 : Int) ≤ 15 ∧ (15 : Int) ≤ 15) ∧ ((0 : Int) ≤ 32767 ∧ (32767 : Int) ≤ 32767) ∧
    Codec.encode 15 32767 = .ok (0xFF, 0xFF, 0x07) ∧
    ¬((0 : Int) ≤ 16 ∧ (16 : Int) ≤ 15) ∧ Codec.encode 16 0 = .error ⟨true, false⟩ ∧
    ¬((0 : Int) ≤ 32768 ∧ (32768 : Int) ≤ 32767) ∧ Codec.encode 0 32768 = .error ⟨false, true⟩ := by decide

theorem witness_EncodedWordHasZeroH : Codec.encode 15 32767 = .ok (0xFF, 0xFF, 0x07) := by decide

theorem witness_WordFieldsByteByByte :
    15 < 16 ∧ 32767 < 32768 ∧ 31 < 32 ∧ 15 + 16 * 32767 + 2 ^ 19 * 31 = 0xFFFFFF ∧
    Codec.encode 4 158 = .ok (0xE4, 0x09, 0x00) := by decide

theorem witness_DecodeSplitsWordOrFails :
    ([0xFE, 0x33] : List Byte).length ≠ 3 ∧ ([] : List Byte).length ≠ 3 ∧
    (0x04 : Byte).toNat % 16 ∈ [4, 7, 11, 14] ∧ Codec.decode [0x04, 0x00, 0x08] = .ok (4, 32768) ∧
    (0xFF : Byte).toNat % 16 ∉ [4, 7, 11, 14] ∧
    Codec.decode [0xFF, 0xFF, 0xFF] = .error (.unknownOpcode 15) := by decide

theorem witness_DecodedOperandIsUnmasked : Codec.decode [0xFE, 0xFF, 0xFF] = .ok (14, 1048575) := by decide

theorem witness_CensusOfWords :
    (0x04 : Byte).toNat % 16 ∈ [4, 7, 11, 14] ∧ littleEndian 0x04 0x00 0x07 / 2 ^ 19 = 0 ∧
    littleEndian 0x04 0x00 0x08 / 2 ^ 19 ≠ 0 ∧ (0x00 : Byte).toNat % 16 ∉ [4, 7, 11, 14] ∧
    Codec.encode 4 28672 = .ok (0x04, 0x00, 0x07) := by decide

theorem witness_EncodeThenDecode :
    32767 ≤ 32767 ∧ (4 : Opcode) ∈ [4, 7, 11, 14] ∧ Codec.encode 4 32767 = .ok (0xF4, 0xFF, 0x07) ∧
    Codec.decode [0xF4, 0xFF, 0x07] = .ok (4, 32767) ∧ (15 : Opcode) ∉ [4, 7, 11, 14] ∧
    Codec.decode [0xFF, 0xFF, 0x07] = .error (.unknownOpcode 15) := by decide

theorem witness_DecodeThenEncode :
    Codec.decode [0xFE, 0xFF, 0x07] = .ok (14, 32767) ∧ (32767 : Operand).toNat ≤ 32767 ∧
    Codec.decode [0x0E, 0x00, 0x08] = .ok (14, 32768) ∧ 32767 < (32768 : Operand).toNat := by decide

theorem witness_CodecIsBijection :
    Codec.encode 14 831 = .ok (0xFE, 0x33, 0x00) ∧ Codec.decode [0xFE, 0x33, 0x00] = .ok (14, 831) ∧
    (14 : Opcode) ∈ [(4 : Opcode), 7, 11, 14] ∧ (831 : Operand).toNat ≤ 32767 ∧
    (0xFE : Byte).toNat % 16 ∈ [4, 7, 11, 14] ∧ littleEndian 0xFE 0x33 0x00 / 2 ^ 19 = 0 := by decide

theorem witness_NameAndOpcodeLookup : nameOf 4 = some .sgn ∧ (15 : Opcode) ∉ [(4 : Opcode), 7, 11, 14] := by decide

theorem witness_EncUnitComputesEncode :
    Codec.encode (15 : BitVec 17).toInt (32767 : BitVec 17).toInt = .ok (0xFF, 0xFF, 0x07) ∧
    Codec.encode (16 : BitVec 17).toInt (32768 : BitVec 17).toInt = .error ⟨true, true⟩ := by decide

theorem witness_DecUnitComputesDecode :
    Codec.decode [0x07, 0x00, 0xF8] = .ok (7, 1015808) ∧
    Codec.decode [0x0F, 0x00, 0x00] = .error (.unknownOpcode 15) ∧ 2 ≠ 3 := by decide

theorem witness_DecodeOfEncodedInstruction :
    (Instr.sgn 1048575).WellFormed ∧ encode (.sgn 1048575) = [0xF4, 0xFF, 0xFF] ∧
    (Instr.unrecognised0 0).WellFormed := by decide

theorem witness_EncodeOfDecodedInstruction : decode [0xFF, 0xFF, 0xFF] = .ok (.unrecognised15 1048575) := by decide

theorem witness_StackPrimitives : (machine [] [] []).stack = [] := by decide

theorem witness_MemoryPrimitives :
    Memory.wf (machine [] [] [(3, -7)]).mem = true ∧
    ((0 : Int) ≤ 2047 ∧ (2047 : Int) < (machine [] [] [(3, -7)]).memSize) ∧
    ¬((0 : Int) ≤ 2048 ∧ (2048 : Int) < (machine [] [] [(3, -7)]).memSize) ∧ ¬((0 : Int) ≤ -1) ∧
    (3 : Int) ≠ 2047 ∧ decode [0xF4, 0xFF, 0xFF] = .ok (.sgn 1048575) := by decide

theorem witness_LoadConstPushesOperand : (0x0E : Byte).toNat % 16 = 14 := by decide

theorem witness_ReadValuePushesCell :
    (0x0B : Byte).toNat % 16 = 11 ∧ 2047 < (machine [] [] []).memSize ∧ (machine [] [] []).memSize ≤ 2048 := by decide

theorem witness_WriteValuePopsThenStores :
    (0x07 : Byte).toNat % 16 = 7 ∧ Memory.wf (machine [] [5] []).mem = true ∧ (machine [] [5] []).stack = 5 :: [] ∧
    2047 < (machine [] [5] []).memSize ∧ (machine [] [] []).stack = [] ∧
    (machine [] [5] []).memSize ≤ 2048 := by decide

theorem witness_SgnPushesSignOfCell :
    (0x04 : Byte).toNat % 16 = 4 ∧ 2047 < (machine [] [] []).memSize ∧ (machine [] [] []).memSize ≤ 2048 ∧
    Memory.read [(3, -7)] 3 < 0 ∧ 0 < Memory.read [(3, 1)] 3 ∧ Memory.read [(3, 1)] 4 = 0 := by decide

theorem witness_UnrecognisedWordsHaltTheRun :
    (Instr.unrecognised15 1048575, (15 : Opcode)) ∈ [(Instr.unrecognised0 1048575, (0 : Opcode)), (.unrecognised15 1048575, 15)] := by
  decide

theorem witness_UnrecognisedOpcodesEncodeButDoNotDecode :
    (0xFF : Byte).toNat % 16 = (15 : Opcode).toNat ∧ 32767 ≤ 32767 := by decide

theorem witness_FrameOfFormsThatStoreNothing :
    (∀ b, Instr.sgn 3 ≠ .writeValue b) ∧ ∃ t, exec (.sgn 3) (machine [] [] [(3, -7)]) = .next t :=
  ⟨fun _ => by simp, _, rfl⟩

theorem witness_FrameOfWriteValue :
    Memory.wf (machine [] [5] [(3, -7)]).mem = true ∧ effectiveAddress 3 = ((3 : Nat) : Int) ∧ 4 ≠ 3 ∧
    ∃ t, exec (.writeValue 3) (machine [] [5] [(3, -7)]) = .next t :=
  ⟨by decide, by decide, by decide, _, rfl⟩

theorem witness_LoadSeesLatestStore :
    Memory.wf (machine [] [5] [(3, -7)]).mem = true ∧ (machine [] [5] [(3, -7)]).stack = 5 :: [] ∧ 2047 < 2048 ∧
    ∃ t u, exec (.writeValue 2047) (machine [] [5] [(3, -7)]) = .next t ∧ exec (.readValue 2047) t = .next u :=
  ⟨by decide, by decide, by decide, _, _, rfl, rfl⟩

theorem witness_StepRunsDecodedInstruction :
    let s := machine [0x34, 0x00, 0x00] [] []
    s.status = .running ∧ s.ip < instructionCount s.image ∧ decode s.fetch = .ok (.sgn 3) := by decide

theorem witness_StepFollowsDecode :
    let s := machine [0x34, 0x00, 0x00] [] []
    s.status = .running ∧ s.ip < instructionCount s.image ∧
    Codec.decode (imgRead s.image (3 * s.ip) 3) = .ok (4, 3) ∧
    (machine [0x34] [] []).ip < instructionCount (machine [0x34] [] []).image ∧
    Codec.decode (imgRead (machine [0x34] [] []).image 0 3) = .error (.format 1) := by decide

theorem witness_CompletedExactlyAtProgramEnd :
    (machine [] [] []).status = .running ∧ instructionCount (machine [] [] []).image ≤ (machine [] [] []).ip ∧
    (step (machine [0x34] [] []) = .next ((machine [0x34] [] []).raise (.codec (.format 1)))) :=
  ⟨by decide, by decide, rfl⟩

theorem witness_StepKeepsInv : (State.start [0x5E, 0x00, 0x00] 2048 [(3, -7)]).Inv ∧
    ∃ t, step (State.start [0x5E, 0x00, 0x00] 2048 [(3, -7)]) = .next t := by
  refine ⟨⟨⟨by decide, by decide⟩, ⟨by decide, by decide, by decide⟩, ⟨by simp, fun _ => rfl⟩, ?_, ⟨fun _ => rfl, ?_⟩⟩,
    _, rfl⟩
  · exact Nat.le_refl 0
  · intro h
    simp at h

theorem witness_InvHoldsAtStart : Memory.wf [(3, -7)] = true ∧ Memory.fits 2048 [(3, -7)] = true := by decide

theorem witness_IpOnlyIncrements :
    after (machine [0x5E, 0x00, 0x00] [] []) = some (1, [5], [], .running) ∧
    after (machine [0x07, 0x00, 0x00] [] []) = some (0, [], [], .haltedError) := ⟨by decide, by decide⟩

theorem witness_ImageIsNeverWritten : ∃ t, step (machine [0x07, 0x00, 0x00] [5] []) = .next t := ⟨_, rfl⟩

theorem witness_ErrorHaltsInPlace : after (machine [0x07, 0x00, 0x00] [] []) = some (0, [], [], .haltedError) := by
  decide

theorem witness_ErrorPriorityAndPrecision :
    after (machine [0x87, 0x38, 0x01] [] []) = some (0, [], [], .haltedError) ∧
    errorAfter (machine [0x87, 0x38, 0x01] [] []) = some ⟨.stackUnderflow, 0⟩ := by decide

theorem witness_StackUnderflowExactly :
    let s := machine [0x07, 0x00, 0x00] [] []
    errorAfter s = some ⟨.stackUnderflow, 0⟩ ∧ s.ip < instructionCount s.image ∧
    decode s.fetch = .ok (.writeValue 0) ∧ s.stackDepth = 0 := by decide

theorem witness_FormatErrorExactly :
    errorAfter (machine [0x07, 0x00] [] []) = some ⟨.codec (.format 2), 0⟩ ∧
    after (machine [0x07, 0x00] [] []) = some (0, [], [], .haltedError) := by decide

theorem witness_AddressRangeExactly :
    let s := machine [0x0B, 0x80, 0x00] [] []
    errorAfter s = some ⟨.addressRange 2048, 0⟩ ∧ s.ip < instructionCount s.image ∧ s.memSize ≤ 2048 ∧
    decode s.fetch = .ok (.readValue 2048) ∧ decode (machine [0x87, 0x38, 0x01] [2] []).fetch = .ok (.writeValue 5000) ∧
    (machine [0x87, 0x38, 0x01] [2] []).stack ≠ [] ∧ decode (machine [0x04, 0x80, 0x00] [] []).fetch = .ok (.sgn 2048) := by
  decide

theorem witness_SlotsOfAnImage :
    ([0x5E, 0x00, 0x00] : List Byte).length % 3 = 0 ∧ 0 < instructionCount [0x5E, 0x00, 0x00] ∧
    ([0x5E, 0x00, 0x00, 0x07] : List Byte).length % 3 ≠ 0 ∧ 0 + 1 < instructionCount [0x5E, 0x00, 0x00, 0x07] ∧
    (machine [0x5E] [] []).status = .running ∧ (machine [0x5E] [] []).ip + 1 = instructionCount [0x5E] := by decide

theorem witness_RunTerminatesWithinSlotCount :
    (run [0x5E, 0x00, 0x00] 2048 []).status = .completed ∧ (run [0x07, 0x00, 0x00] 2048 []).status = .haltedError := by
  decide

theorem witness_TraceOfARun :
    (run [0x5E, 0x00, 0x00] 2048 []).ip = 1 ∧ (run [0x5E, 0x00, 0x00] 2048 []).status = .completed ∧
    (run [0x07, 0x00, 0x00] 2048 []).status = .haltedError := by decide

theorem witness_StackDepthIsBounded :
    after (machine [0xA7, 0x00, 0x00] [2, 1] []) = some (1, [1], [(10, 2)], .running) ∧
    after (machine [0x34, 0x00, 0x00] [8] []) = some (1, [0, 8], [], .running) := ⟨by decide, by decide⟩

theorem witness_ReachableValues : (State.start [0x5E, 0x00, 0x00] 2048 []).ValuesOk ∧
    ∃ t, step (State.start [0x5E, 0x00, 0x00] 2048 []) = .next t :=
  ⟨⟨by simp, by simp⟩, _, rfl⟩

theorem witness_DisciplinedProgramsComplete :
    let program : List (OpName × Nat) := [(.loadConst, 32767), (.writeValue, 2047)]
    (∀ p ∈ program, p.2 ≤ 32767) ∧ (∀ p ∈ program, p.1 ≠ .loadConst → p.2 < 2048) ∧ KeepsStackDiscipline program := by
  refine ⟨by decide, by decide, ?_⟩
  intro k hk
  simp only [List.length_cons, List.length_nil] at hk
  interval_cases k <;> decide

theorem witness_ErrorStagesAreSeparate : errorCode .rangeError = errorCode .rangeError := rfl

theorem witness_IntegerLiteralGrammar :
    (['0', '0', '7'] : List Char) ≠ [] ∧ (∀ c ∈ ['0', '0', '7'], '0' ≤ c ∧ c ≤ '9') ∧
    parseLiteral ['-', '0', '9'] = some (-9) ∧
    (tokens (prepare ['s', ' ', 'x']) = [['s'], ['x']] ∧ parseLiteral ['x'] = none) ∧
    (⟨1, .sgn, -1⟩ : SourceInstr).operand < 0 := ⟨by simp, by simp, by decide, ⟨by decide, by decide⟩, by decide⟩

theorem witness_CommandLookupIsExact :
    tokens (prepare ['S', ' ', '3']) = [['S'], ['3']] ∧ parseLiteral ['3'] = some 3 ∧ (∀ name, ['S'] ≠ spelling name) := by
  refine ⟨by decide, by decide, ?_⟩
  intro name
  cases name <;> decide

theorem witness_LinesAndTokensSplit :
    (decodeUtf8 [0xC3, 0xA9] = some ['é'] ∧ [0xC3, 0xA9] = encodeUtf8 ['é']) ∧
    ((∀ l ∈ [['a'], []], '\n' ∉ l) ∧ '\n' ∉ ['b'] ∧ (['b'] : List Char) ≠ []) ∧
    ((∀ c ∈ ([] : List Char), isBlank c = true) ∧ (['x'] : List Char) ≠ [] ∧ (∀ c ∈ ['x'], isBlank c = false ∧ c ≠ '#') ∧
      (['\t', ' '] : List Char) ≠ [] ∧ (∀ c ∈ ['\t', ' '], isBlank c = true)) ∧
    ∀ c ∈ ['\r'], isBlank c = true :=
  ⟨by decide, by simp, by simp [isBlank], by simp [isBlank]⟩

/-- No text has these bytes. -/
theorem witness_LinesAndTokensSplit_malformed : ∀ text, [0xC3] ≠ encodeUtf8 text := by
  intro text h
  cases text with
  | nil => cases h
  | cons c cs =>
    have hd := decodeUtf8_char c (encodeUtf8 cs)
    rw [show utf8Char c ++ encodeUtf8 cs = [0xC3] from h.symm] at hd
    have hl := congrArg List.length h
    simp only [encodeUtf8, List.flatMap_cons, utf8Char] at h hl
    split_ifs at h hl <;> simp at h hl
    rename_i h1
    have := congrArg BitVec.toNat h.1
    simp at this
    omega

theorem witness_LineCheckOrder :
    (prepare ['s', ' ', '1', ' ', '2'] ≠ [] ∧ (tokens (prepare ['s', ' ', '1', ' ', '2'])).length ≠ 2) ∧
    (tokens (prepare ['f', ' ', 'b']) = [['f'], ['b']] ∧ parseLiteral ['b'] = none) ∧
    (parseLiteral ['1'] = some 1 ∧ lookupCommand ['f'] = none) ∧ lookupCommand ['s', 'g', 'n'] = some .sgn ∧
    (parseLine 1 [] = .ok none ∧ parseLine 2 ['s', 'g', 'n'] = .error ⟨2, .tokenCount⟩) := by decide

theorem witness_CommentsAndBlanksAreSkipped :
    (∀ c ∈ [' ', '\t'], isBlank c = true) ∧ '#' ∉ ['s', 'g', 'n'] ∧ parseLine 1 ['#', 'x'] = .ok none :=
  ⟨by simp [isBlank], by simp, by decide⟩

theorem witness_ParsingPrecedesEncoding :
    parseText "sgn".toList = .error ⟨1, .tokenCount⟩ ∧ parseText "sgn 32767".toList = .ok [⟨1, .sgn, 32767⟩] ∧
    parseText "sgn 32768".toList = .ok ([] ++ ⟨1, .sgn, 32768⟩ :: []) ∧ (32767 : Int) < 32768 :=
  ⟨by decide, by decide, by decide, by decide⟩

theorem witness_AssembledImageFollowsTheList :
    assemble "sgn 3".toList = .ok ([0x34, 0x00, 0x00], [(.sgn, 3)]) ∧
    ([(.sgn, 3)] : List (OpName × Int))[0]? = some (.sgn, 3) ∧ (splitLines "sgn 3".toList)[0]? = some "sgn 3".toList ∧
    splitLines "#".toList = [['#']] ∧ parseLine 1 ['#'] = .ok none := by
  refine ⟨by decide, by decide, by decide, by decide, by decide⟩

theorem witness_AssembledProgramsNeverFailToDecode :
    assemble "sgn 3".toList = .ok ([0x34, 0x00, 0x00], [(.sgn, 3)]) ∧
    ((machine [0x34, 0x00, 0x00] [] []).image = [0x34, 0x00, 0x00] ∧
      (machine [0x34, 0x00, 0x00] [] []).status = .running ∧
      [(OpName.sgn, (3 : Int))][(machine [0x34, 0x00, 0x00] [] []).ip]? = some (.sgn, 3)) ∧
    0 ≤ (run [0x34, 0x00, 0x00] 2048 []).ip := ⟨by decide, by decide, by decide⟩

/-- A step that halts on an error in a state that holds an assembled image. -/
theorem witness_AssembledProgramsNeverFailToDecode_error :
    assemble "write_value 0".toList = .ok ([0x07, 0x00, 0x00], [(.writeValue, 0)]) ∧
    after (machine [0x07, 0x00, 0x00] [] []) = some (0, [], [], .haltedError) := ⟨by decide, by decide⟩

theorem witness_DisassembledProgramsAssembleBack :
    ∀ p ∈ ([(.sgn, 32767), (.loadConst, 0)] : List (OpName × Nat)), p.2 ≤ 32767 := by decide

theorem witness_NonCanonicalSpellingIsRejected :
    32767 < (Instr.sgn 32768).operand ∧ disassemble (.sgn 32768) = some "sgn 32768".toList := by decide

end Sys2Proof.Tests
end

section
/-! The data-memory primitives and the addresses an instruction can present (spec/20_memory.md R39, spec/30_encoding.md R55). -/

namespace Sys2Proof

/-- The operand read from a slot fits the 20 bits above field A (R55). -/
theorem decode_wellFormed {bytes : List Byte} {i : Instr} (h : decode bytes = .ok i) : i.WellFormed := by
  obtain ⟨b0, b1, b2, -, rfl⟩ := decode_eq_ok h
  have hlt := littleEndian_lt b0 b1 b2
  rw [Instr.WellFormed, (instrOf_fields _ _).2, fieldHB_eq]
  omega

end Sys2Proof

namespace Sys2Proof.Machine

variable {s : State} {addr : Int} {v : Cell}

theorem State.memRead_of_inside (h : 0 ≤ addr ∧ addr < s.memSize) :
    s.memRead addr = .ok (Memory.read s.mem addr.toNat) :=
  if_pos (State.inRange_iff.mpr h)

theorem State.memRead_of_outside (h : ¬(0 ≤ addr ∧ addr < s.memSize)) : s.memRead addr = .error (.addressRange addr) :=
  if_neg (mt State.inRange_iff.mp h)

theorem State.memWrite_of_inside (h : 0 ≤ addr ∧ addr < s.memSize) :
    s.memWrite addr v = .ok { s with mem := Memory.write s.mem addr.toNat v } :=
  if_pos (State.inRange_iff.mpr h)

theorem State.memWrite_of_outside (h : ¬(0 ≤ addr ∧ addr < s.memSize)) :
    s.memWrite addr v = .error (.addressRange addr) :=
  if_neg (mt State.inRange_iff.mp h)

/-- The effective address of a decoded instruction is never negative and below `2^20` (R55, R128). -/
theorem effectiveAddress_of_decode {bytes : List Byte} {i : Instr} (h : decode bytes = .ok i) :
    0 ≤ effectiveAddress i.operand ∧ effectiveAddress i.operand ≤ 1048575 := by
  have hwf : i.operand < 1048576 := decode_wellFormed h
  simp only [effectiveAddress]
  omega

/-- Settles O19: the range test decides between the error and the cell, a write inside is `Memory.write`, whose laws give the
cells, and the address bound is that of a decoded operand. -/
theorem memoryPrimitives : Obligations.MemoryPrimitives := by
  refine ⟨fun s addr v hwf => ⟨fun hout => ?_, fun hin => ?_⟩, fun _ _ => effectiveAddress_of_decode⟩
  · exact ⟨State.memRead_of_outside hout, State.memWrite_of_outside hout⟩
  · have hsame : Memory.read (Memory.write s.mem addr.toNat v) addr.toNat = v := Memory.read_write_same hwf _ v
    refine ⟨State.memRead_of_inside hin, _, State.memWrite_of_inside hin, rfl, hsame, ?_, ?_, Memory.wf_write hwf _ v⟩
    · have hread := State.memRead_of_inside (s := { s with mem := Memory.write s.mem addr.toNat v }) hin
      exact hread.trans (congrArg Except.ok hsame)
    · intro a ha
      exact Memory.read_write_other hwf (by omega) v

end Sys2Proof.Machine
end

section
/-! The two parameters of a run, the image and the memory size, which no step changes (spec/20_memory.md R45,
spec/10_state.md R18). -/

namespace Sys2Proof.Machine

variable {s t : State}

/-- No instruction changes the image or the memory size (R18, R45). -/
theorem exec_keeps_image_memSize {i : Instr} (h : exec i s = .next t) : t.image = s.image ∧ t.memSize = s.memSize := by
  cases i
  case loadConst b => simp [execLoadConst_cases h]
  case readValue b => obtain ⟨-, rfl⟩ | ⟨-, rfl⟩ := execReadValue_cases h <;> simp
  case writeValue b =>
    obtain ⟨-, rfl⟩ | ⟨v, rest, -, -, rfl⟩ | ⟨v, rest, -, -, rfl⟩ := execWriteValue_cases h <;> simp
  case sgn b => obtain ⟨-, rfl⟩ | ⟨-, rfl⟩ := execSgn_cases h <;> simp
  all_goals simp [exec_of_name_none rfl h]

/-- No step changes the image or the memory size (R18, R45). -/
theorem step_keeps_image_memSize (h : step s = .next t) : t.image = s.image ∧ t.memSize = s.memSize := by
  obtain ⟨-, ⟨-, rfl⟩ | ⟨-, e, -, rfl⟩ | ⟨-, i, -, hexec⟩⟩ := step_cases h
  · simp
  · simp
  · exact exec_keeps_image_memSize hexec

/-- What every step keeps, every run keeps: the induction over the passes of the loop (R120). -/
theorem runFor_keeps {P : State → Prop} (hstep : ∀ {s t}, step s = .next t → P s → P t) (k : Nat) (hs : P s) :
    P (runFor k s) := by
  induction k generalizing s with
  | zero => exact hs
  | succ k ih =>
    rw [runFor]
    split
    · exact ih (hstep ‹_› hs)
    · exact hs
    · exact hs

/-- Settles O36: every step keeps both parameters, so a run keeps the image it was started with. -/
theorem imageIsNeverWritten : Obligations.ImageIsNeverWritten := by
  refine ⟨fun s t => step_keeps_image_memSize, fun image size mem0 k => ?_⟩
  exact runFor_keeps (P := fun s => s.image = image) (fun hst hs => (step_keeps_image_memSize hst).1.trans hs) k rfl

end Sys2Proof.Machine
end

section
/-! The words that ENCODE produces and DECODE reads, by their fields (spec/30_encoding.md R52, R57, R61). -/

namespace Sys2Proof

/-! ## Words by their fields -/

/-- A word of fields A, B and H byte by byte (R52). -/
theorem byteOf_word {a b h : Nat} (ha : a < 16) (hb : b < 32768) (hh : h < 32) :
    (byteOf (a + 16 * b + 2 ^ 19 * h) 0).toNat = a + 16 * (b % 16) ∧
    (byteOf (a + 16 * b + 2 ^ 19 * h) 1).toNat = b / 16 % 256 ∧
    (byteOf (a + 16 * b + 2 ^ 19 * h) 2).toNat = b / 4096 + 8 * h := by
  simp only [byteOf_toNat]
  omega

/-- Field A is in byte 0 alone (R52). -/
theorem littleEndian_mod_16 (b0 b1 b2 : Byte) : littleEndian b0 b1 b2 % 16 = b0.toNat % 16 := by
  rw [littleEndian]
  omega

/-- Any 4-bit opcode and 20-bit operand are the fields of the word made from them (R51, R55). -/
theorem fields_wordBytes {a x : Nat} (ha : a < 16) (hx : x < 1048576) :
    (wordBytes (a + 16 * x)).1.toNat % 16 = a ∧
    littleEndian (wordBytes (a + 16 * x)).1 (wordBytes (a + 16 * x)).2.1 (wordBytes (a + 16 * x)).2.2 / 16 = x := by
  rw [← littleEndian_mod_16 _ (wordBytes (a + 16 * x)).2.1 (wordBytes (a + 16 * x)).2.2]
  simp only [wordBytes, littleEndian_byteOf]
  omega

/-- A word is made from its fields (R51, R55). -/
theorem wordBytes_fields (w : WordBytes) :
    wordBytes (w.1.toNat % 16 + 16 * (littleEndian w.1 w.2.1 w.2.2 / 16)) = w := by
  obtain ⟨h0, h1, h2⟩ := byteOf_littleEndian w.1 w.2.1 w.2.2
  rw [← littleEndian_mod_16 w.1 w.2.1 w.2.2, Nat.mod_add_div, wordBytes, h0, h1, h2]

/-! ## ENCODE and DECODE -/

/-- ENCODE succeeds exactly in range, with the bytes of `opcode + 16 * operand` (R90). -/
theorem Codec.encode_eq_ok {opcode operand : Int} {w : WordBytes} :
    Codec.encode opcode operand = .ok w ↔
      (0 ≤ opcode ∧ opcode ≤ 15) ∧ (0 ≤ operand ∧ operand ≤ 32767) ∧
        w = wordBytes (opcode.toNat + 16 * operand.toNat) := by
  unfold Codec.encode
  by_cases hin : (0 ≤ opcode ∧ opcode ≤ 15) ∧ (0 ≤ operand ∧ operand ≤ 32767)
  · have hA : ¬(opcode < 0 ∨ opcode > 15) := by omega
    have hB : ¬(operand < 0 ∨ operand > 32767) := by omega
    simp [hA, hB, hin, wordOf_eq (show opcode.toNat < 16 by omega), eq_comm]
  · have hout : (opcode < 0 ∨ opcode > 15) ∨ (operand < 0 ∨ operand > 32767) := by omega
    exact iff_of_false (by simp [hout]) fun ⟨hA, hB, _⟩ => hin ⟨hA, hB⟩

/-- ENCODE of a 4-bit opcode and a 15-bit operand (R90). -/
theorem Codec.encode_natCast {a b : Nat} (ha : a < 16) (hb : b < 32768) :
    Codec.encode a b = .ok (wordBytes (a + 16 * b)) :=
  Codec.encode_eq_ok.mpr ⟨by omega, by omega, rfl⟩

/-- The words ENCODE produces are those with H = 0 (R61, R93). -/
theorem exists_encode_eq_ok_iff {w : WordBytes} :
    (∃ a b, Codec.encode a b = .ok w) ↔ littleEndian w.1 w.2.1 w.2.2 / 2 ^ 19 = 0 := by
  constructor
  · rintro ⟨a, b, h⟩
    obtain ⟨ha, hb, rfl⟩ := Codec.encode_eq_ok.mp h
    have hx := (fields_wordBytes (a := a.toNat) (x := b.toNat) (by omega) (by omega)).2
    omega
  · intro h
    refine ⟨_, _, (Codec.encode_natCast (a := w.1.toNat % 16) (b := littleEndian w.1 w.2.1 w.2.2 / 16)
      (by omega) (by omega)).trans ?_⟩
    rw [wordBytes_fields]

/-- NAME_OF fails on the twelve opcodes other than 4, 7, 11 and 14 (R56, R101). -/
theorem nameOf_eq_none_iff : ∀ a : Opcode, nameOf a = none ↔ a.toNat ∉ [4, 7, 11, 14] := by decide

/-- The opcode DECODE reads is the low half of byte 0 (R52, R94). -/
theorem ofNat_fieldA_littleEndian (b0 b1 b2 : Byte) :
    BitVec.ofNat 4 (fieldA (littleEndian b0 b1 b2)) = BitVec.ofNat 4 b0.toNat := by
  apply BitVec.eq_of_toNat_eq
  simp only [fieldA_eq, littleEndian_mod_16, BitVec.toNat_ofNat]
  omega

/-- DECODE of a word with a recognised opcode (R94). -/
theorem Codec.decode_of_recognised {b0 : Byte} (h : b0.toNat % 16 ∈ [4, 7, 11, 14]) (b1 b2 : Byte) :
    Codec.decode [b0, b1, b2] =
      .ok (BitVec.ofNat 4 b0.toNat, BitVec.ofNat 20 (littleEndian b0 b1 b2 / 16)) := by
  have hname : nameOf (BitVec.ofNat 4 b0.toNat) ≠ none := by
    rw [Ne, nameOf_eq_none_iff, not_not]
    exact h
  obtain ⟨n, hn⟩ := Option.ne_none_iff_exists'.mp hname
  simp only [Codec.decode, ofNat_fieldA_littleEndian, hn, fieldHB_eq]

/-- DECODE of any other word (R57, R94). -/
theorem Codec.decode_of_unrecognised {b0 : Byte} (h : b0.toNat % 16 ∉ [4, 7, 11, 14]) (b1 b2 : Byte) :
    Codec.decode [b0, b1, b2] = .error (.unknownOpcode (BitVec.ofNat 4 b0.toNat)) := by
  have hname : nameOf (BitVec.ofNat 4 b0.toNat) = none := (nameOf_eq_none_iff _).mpr h
  simp only [Codec.decode, ofNat_fieldA_littleEndian, hname]

/-- DECODE of a word with a recognised opcode returns its two fields as they stand, the operand unmasked (R55, R94). -/
theorem Codec.decode_fields_of_recognised {w : WordBytes} (h : w.1.toNat % 16 ∈ [4, 7, 11, 14]) :
    ∃ opcode operand, Codec.decode [w.1, w.2.1, w.2.2] = .ok (opcode, operand) ∧
      opcode.toNat = w.1.toNat % 16 ∧ operand.toNat = littleEndian w.1 w.2.1 w.2.2 / 16 := by
  have hlt : littleEndian w.1 w.2.1 w.2.2 / 16 < 2 ^ 20 := Nat.div_lt_of_lt_mul (littleEndian_lt ..)
  exact ⟨_, _, Codec.decode_of_recognised h _ _, BitVec.toNat_ofNat ..,
    (BitVec.toNat_ofNat ..).trans (Nat.mod_eq_of_lt hlt)⟩

/-- Settles O3: the first half is arithmetic; an encoded word is the case H = 0. -/
theorem wordFieldsByteByByte : Obligations.WordFieldsByteByByte := by
  refine ⟨fun a b h => byteOf_word, fun opcode operand b0 b1 b2 henc => ?_⟩
  obtain ⟨hA, hB, hw⟩ := Codec.encode_eq_ok.mp henc
  obtain ⟨rfl, rfl, rfl⟩ : b0 = byteOf _ 0 ∧ b1 = byteOf _ 1 ∧ b2 = byteOf _ 2 := by simpa [wordBytes] using hw
  obtain ⟨h0, h1, h2⟩ := byteOf_word (a := opcode.toNat) (b := operand.toNat) (h := 0) (by omega) (by omega) (by omega)
  simp only [mul_zero, add_zero] at h0 h1 h2
  omega

/-- Settles O25: none of the twelve opcodes is recognised, and each is a 4-bit number, which is all ENCODE asks of it. -/
theorem unrecognisedOpcodesEncodeButDoNotDecode : Obligations.UnrecognisedOpcodesEncodeButDoNotDecode := by
  intro a ha
  have hnot : a.toNat ∉ [4, 7, 11, 14] := by revert a; decide
  refine ⟨fun b0 b1 b2 h0 => ?_, fun b hb => ?_⟩
  · have hopcode : BitVec.ofNat 4 b0.toNat = a := BitVec.eq_of_toNat_eq (by simpa using h0)
    rw [Codec.decode_of_unrecognised (h0 ▸ hnot), hopcode]
  · exact ⟨_, _, _, Codec.encode_natCast a.isLt (by omega), (fields_wordBytes a.isLt (by omega)).1⟩

/-! ## How many words there are of a class -/

/-- Field A of a word and the 20 bits above it. -/
def wordFields (w : WordBytes) : Nat × Nat := (w.1.toNat % 16, littleEndian w.1 w.2.1 w.2.2 / 16)

/-- A word is determined by its fields. -/
theorem wordFields_injective : Function.Injective wordFields := by
  have hinv : Function.LeftInverse (fun p : Nat × Nat => wordBytes (p.1 + 16 * p.2)) wordFields := wordBytes_fields
  exact hinv.injective

/-- The fields of a word are chosen independently, so a class that allows `A` for field A and `lo` to `hi - 1` for the
20 bits above it has `A.card * (hi - lo)` words (R61). -/
theorem ncard_words {P : WordBytes → Prop} {A : Finset Nat} {lo hi : Nat} (hA : ∀ a ∈ A, a < 16) (hhi : hi ≤ 1048576)
    (hP : ∀ w, P w ↔ (wordFields w).1 ∈ A ∧ lo ≤ (wordFields w).2 ∧ (wordFields w).2 < hi) :
    Set.ncard {w | P w} = A.card * (hi - lo) := by
  have hclass : {w | P w} = wordFields ⁻¹' (A ×ˢ Finset.Ico lo hi : Finset (Nat × Nat)) := by
    ext w
    simp [hP]
  have hrange : ((A ×ˢ Finset.Ico lo hi : Finset (Nat × Nat)) : Set (Nat × Nat)) ⊆ Set.range wordFields := by
    rintro ⟨a, x⟩ hp
    obtain ⟨ha, hx⟩ := Finset.mem_product.mp (Finset.mem_coe.mp hp)
    obtain ⟨hfa, hfx⟩ := fields_wordBytes (hA a ha) ((Finset.mem_Ico.mp hx).2.trans_le hhi)
    exact ⟨_, Prod.ext hfa hfx⟩
  rw [hclass, Set.ncard_preimage_of_injective_subset_range wordFields_injective hrange, Set.ncard_coe_finset,
    Finset.card_product, Nat.card_Ico]

/-- The opcodes that select an instruction (R56). -/
def recognisedOpcodes : Finset Nat := {4, 7, 11, 14}

/-- The opcodes that select none (R57). -/
def otherOpcodes : Finset Nat := Finset.range 16 \ recognisedOpcodes

theorem mem_recognisedOpcodes_iff {n : Nat} : n ∈ recognisedOpcodes ↔ n ∈ [4, 7, 11, 14] := by
  simp [recognisedOpcodes]

theorem mod_16_mem_otherOpcodes_iff {n : Nat} : n % 16 ∈ otherOpcodes ↔ n % 16 ∉ [4, 7, 11, 14] := by
  have hlt : n % 16 < 16 := Nat.mod_lt n (by decide)
  rw [otherOpcodes, Finset.mem_sdiff, mem_recognisedOpcodes_iff, Finset.mem_range, and_iff_right hlt]

theorem lt_16_of_mem_recognisedOpcodes : ∀ a ∈ recognisedOpcodes, a < 16 := by decide

theorem lt_16_of_mem_otherOpcodes : ∀ a ∈ otherOpcodes, a < 16 := by decide

/-- H = 0 says that the 20 bits above field A are at most 32767 (R58). -/
theorem zeroH_iff {v : Nat} : v / 2 ^ 19 = 0 ↔ 0 ≤ v / 16 ∧ v / 16 < 32768 := by omega

/-- H is not zero exactly when the 20 bits above field A are above 32767 (R59). -/
theorem nonzeroH_iff {b0 b1 b2 : Byte} :
    ¬littleEndian b0 b1 b2 / 2 ^ 19 = 0 ↔
      32768 ≤ littleEndian b0 b1 b2 / 16 ∧ littleEndian b0 b1 b2 / 16 < 1048576 := by
  have hlt := littleEndian_lt b0 b1 b2
  omega

/-- There are 131072 canonical words (R61). -/
theorem ncard_canonical_words :
    Set.ncard {w : WordBytes | w.1.toNat % 16 ∈ [4, 7, 11, 14] ∧ littleEndian w.1 w.2.1 w.2.2 / 2 ^ 19 = 0} = 131072 :=
  ncard_words lt_16_of_mem_recognisedOpcodes (by decide) fun _ => and_congr mem_recognisedOpcodes_iff.symm zeroH_iff

/-- There are 4063232 non-canonical words (R61). -/
theorem ncard_noncanonical_words :
    Set.ncard {w : WordBytes | w.1.toNat % 16 ∈ [4, 7, 11, 14] ∧ ¬littleEndian w.1 w.2.1 w.2.2 / 2 ^ 19 = 0} =
      4063232 :=
  ncard_words lt_16_of_mem_recognisedOpcodes le_rfl fun _ => and_congr mem_recognisedOpcodes_iff.symm nonzeroH_iff

/-- There are 12582912 illegal words (R61). -/
theorem ncard_illegal_words : Set.ncard {w : WordBytes | w.1.toNat % 16 ∉ [4, 7, 11, 14]} = 12582912 := by
  have hbits : ∀ w, 0 ≤ (wordFields w).2 ∧ (wordFields w).2 < 1048576 := fun w =>
    ⟨Nat.zero_le _, Nat.div_lt_of_lt_mul (littleEndian_lt ..)⟩
  exact ncard_words lt_16_of_mem_otherOpcodes le_rfl fun w =>
    mod_16_mem_otherOpcodes_iff.symm.trans (and_iff_left (hbits w)).symm

/-- There are 393216 illegal words with H = 0 (R61). -/
theorem ncard_illegal_zeroH_words :
    Set.ncard {w : WordBytes | w.1.toNat % 16 ∉ [4, 7, 11, 14] ∧ littleEndian w.1 w.2.1 w.2.2 / 2 ^ 19 = 0} = 393216 :=
  ncard_words lt_16_of_mem_otherOpcodes (by decide) fun _ => and_congr mod_16_mem_otherOpcodes_iff.symm zeroH_iff

/-- There are 524288 words with H = 0 (R61). -/
theorem ncard_zeroH_words : Set.ncard {w : WordBytes | littleEndian w.1 w.2.1 w.2.2 / 2 ^ 19 = 0} = 524288 := by
  have hopcode : ∀ w, (wordFields w).1 ∈ Finset.range 16 := fun w =>
    Finset.mem_range.mpr (Nat.mod_lt _ (by decide))
  exact ncard_words (fun _ => Finset.mem_range.mp) (by decide) fun w =>
    zeroH_iff.trans (and_iff_right (hopcode w)).symm

/-- Settles O7: the words ENCODE produces are those with H = 0, so every count is that of a class given by its fields. -/
theorem censusOfWords : Obligations.CensusOfWords := by
  dsimp only [Obligations.CensusOfWords]
  simp only [exists_encode_eq_ok_iff]
  refine ⟨ncard_canonical_words, ncard_noncanonical_words, ncard_illegal_words, fun w hA hH => ?_, fun w hA hH => ?_,
    fun w hA => ⟨_, Codec.decode_of_unrecognised hA _ _⟩, ncard_zeroH_words, ?_, ?_, fun w hH => hH⟩
  · obtain ⟨opcode, operand, hd, hopcode, hoperand⟩ := Codec.decode_fields_of_recognised hA
    exact ⟨opcode, operand, hd, hopcode, by omega⟩
  · obtain ⟨opcode, operand, hd, hopcode, hoperand⟩ := Codec.decode_fields_of_recognised hA
    exact ⟨opcode, operand, hd, hopcode, by omega, by omega⟩
  · simpa only [and_comm] using ncard_canonical_words
  · simpa only [and_comm] using ncard_illegal_zeroH_words

end Sys2Proof
end

section
/-! The image of an assembled text follows its lines in source order (spec/30_encoding.md R64, R68, R69). -/

namespace Sys2Proof.Machine

/-! ## The encode phase -/

/-- The encoding of one element is the three bytes of ENCODE (R104). -/
theorem encodeSource_eq_ok {i : SourceInstr} {bytes : List Byte} :
    encodeSource i = .ok bytes ↔
      ∃ b0 b1 b2, Codec.encode (opcodeOf i.name).toNat i.operand = .ok (b0, b1, b2) ∧ bytes = [b0, b1, b2] := by
  unfold encodeSource
  rcases Codec.encode (opcodeOf i.name).toNat i.operand with e | ⟨b0, b1, b2⟩
  · simp
  · simp [eq_comm, ← and_assoc]

/-- The encoding of a list begins with that of its first element (R69). -/
theorem encodeSources_cons_eq_ok {i : SourceInstr} {is : List SourceInstr} {image : List Byte} :
    encodeSources (i :: is) = .ok image ↔
      ∃ bytes rest, encodeSource i = .ok bytes ∧ encodeSources is = .ok rest ∧ image = bytes ++ rest := by
  rw [encodeSources]
  cases encodeSource i <;> cases encodeSources is <;> simp [Except.map, eq_comm]

/-- Slot 0 is the first three bytes of the image (R32). -/
theorem slot_zero (b0 b1 b2 : Byte) (rest : List Byte) : slot (b0 :: b1 :: b2 :: rest) 0 = [b0, b1, b2] := rfl

/-- The other slots are those of the image without its first three bytes (R32). -/
theorem slot_succ (b0 b1 b2 : Byte) (rest : List Byte) (k : Nat) :
    slot (b0 :: b1 :: b2 :: rest) (k + 1) = slot rest k := rfl

/-- The image has three bytes for each element of the list (R69). -/
theorem length_of_encodeSources {is : List SourceInstr} {image : List Byte} (h : encodeSources is = .ok image) :
    image.length = 3 * is.length := by
  induction is generalizing image with
  | nil => cases h; rfl
  | cons i is ih =>
    obtain ⟨bytes, rest, hi, his, rfl⟩ := encodeSources_cons_eq_ok.mp h
    obtain ⟨b0, b1, b2, -, rfl⟩ := encodeSource_eq_ok.mp hi
    simp only [List.length_append, List.length_cons, List.length_nil, ih his]
    omega

/-- Slot `k` of the image holds the encoding of element `k` (R69). -/
theorem slot_of_encodeSources {is : List SourceInstr} {image : List Byte} (h : encodeSources is = .ok image)
    {k : Nat} {i : SourceInstr} (hk : is[k]? = some i) : encodeSource i = .ok (slot image k) := by
  induction is generalizing image k with
  | nil => cases hk
  | cons j is ih =>
    obtain ⟨bytes, rest, hj, his, rfl⟩ := encodeSources_cons_eq_ok.mp h
    obtain ⟨b0, b1, b2, -, rfl⟩ := encodeSource_eq_ok.mp hj
    cases k with
    | zero =>
      cases hk
      exact hj
    | succ k => exact ih his hk

/-! ## The parse phase -/

/-- The element a line gives stands before those of the lines after it; a skipped line gives none (R64). -/
theorem parseLines_cons_eq_ok {n : Nat} {line : List Char} {lines : List (List Char)} {is : List SourceInstr} :
    parseLines n (line :: lines) = .ok is ↔
      ∃ r rest, parseLine n line = .ok r ∧ parseLines (n + 1) lines = .ok rest ∧ is = r.toList ++ rest := by
  rw [parseLines]
  rcases parseLine n line with e | _ | i
  · simp
  · simp [eq_comm]
  · cases parseLines (n + 1) lines <;> simp [Except.map, eq_comm]

/-- The list is what the lines give, one result for each line, in source order (R64, R69). -/
theorem results_of_parseLines {n : Nat} {lines : List (List Char)} {is : List SourceInstr}
    (h : parseLines n lines = .ok is) :
    ∃ results : List (Option SourceInstr), results.length = lines.length ∧
      (∀ k line, lines[k]? = some line → ∃ r, results[k]? = some r ∧ parseLine (k + n) line = .ok r) ∧
      is = results.reduceOption := by
  induction lines generalizing n is with
  | nil =>
    cases h
    exact ⟨[], rfl, by simp, rfl⟩
  | cons line lines ih =>
    obtain ⟨r, rest, hline, hlines, rfl⟩ := parseLines_cons_eq_ok.mp h
    obtain ⟨results, hlen, hresults, rfl⟩ := ih hlines
    refine ⟨r :: results, by simp [hlen], fun k l hk => ?_, by cases r <;> rfl⟩
    cases k with
    | zero =>
      cases hk
      exact ⟨r, rfl, by rwa [Nat.zero_add]⟩
    | succ k =>
      obtain ⟨r', hr', hl⟩ := hresults k l hk
      exact ⟨r', hr', by rwa [Nat.add_right_comm]⟩

/-- Lines that are all skipped give the empty list (R64). -/
theorem parseLines_of_skipped {lines : List (List Char)} (h : ∀ line ∈ lines, ∀ n, parseLine n line = .ok none)
    (n : Nat) : parseLines n lines = .ok [] := by
  induction lines generalizing n with
  | nil => rfl
  | cons line lines ih =>
    obtain ⟨hline, hlines⟩ := List.forall_mem_cons.mp h
    exact parseLines_cons_eq_ok.mpr ⟨none, [], hline n, ih hlines (n + 1), rfl⟩

/-! ## The whole assembly -/

/-- An assembly is a parse followed by the encoding of the list it gave (R68). -/
theorem assemble_eq_ok {text : List Char} {image : List Byte} {list : List (OpName × Int)} :
    assemble text = .ok (image, list) ↔
      ∃ is, parseText text = .ok is ∧ encodeSources is = .ok image ∧ list = is.map fun i => (i.name, i.operand) := by
  unfold assemble
  rcases parseText text with e | is
  · simp
  · cases h : encodeSources is <;> simp [Except.map, h, eq_comm]

/-- Settles O57: the image from the encode phase, the order from the parse phase. -/
theorem assembledImageFollowsTheList : Obligations.AssembledImageFollowsTheList := by
  refine ⟨fun text image list h => ?_, fun text image list h => ?_, fun text h => ?_⟩
  · obtain ⟨is, -, henc, rfl⟩ := assemble_eq_ok.mp h
    have hlen := length_of_encodeSources henc
    refine ⟨by simpa using hlen, by rw [instructionCount, hlen, List.length_map]; omega, fun k name operand hk => ?_⟩
    obtain ⟨i, hi, ⟨⟩⟩ := Option.map_eq_some_iff.mp (List.getElem?_map.symm.trans hk)
    exact encodeSource_eq_ok.mp (slot_of_encodeSources henc hi)
  · obtain ⟨is, hparse, -, rfl⟩ := assemble_eq_ok.mp h
    obtain ⟨results, hlen, hresults, rfl⟩ := results_of_parseLines hparse
    exact ⟨results, hlen, hresults, List.map_filterMap ..⟩
  · exact assemble_eq_ok.mpr ⟨[], parseLines_of_skipped h 1, rfl, rfl⟩

end Sys2Proof.Machine
end

section
/-! ENCODE and DECODE as one bijection between the pairs (opcode, operand) and the words, restricted by ENCODE to the
operands up to 32767 and by DECODE to the recognised opcodes (spec/40_codec_operations.md R90 to R101). -/

namespace Sys2Proof

/-! ## The pairs (opcode, operand) and the words -/

/-- The word with a given field A and given 20 bits above it (R51, R55). -/
def wordOfPair (p : Opcode × Operand) : WordBytes := wordBytes (p.1.toNat + 16 * p.2.toNat)

/-- The fields of the word made from a pair are the pair. -/
theorem wordFields_wordOfPair (p : Opcode × Operand) : wordFields (wordOfPair p) = (p.1.toNat, p.2.toNat) :=
  Prod.ext_iff.mpr (fields_wordBytes p.1.isLt p.2.isLt)

/-- The word determines the pair it was made from. -/
theorem wordOfPair_injective : Function.Injective wordOfPair := by
  intro p q h
  have hfields := (wordFields_wordOfPair p).symm.trans (h ▸ wordFields_wordOfPair q)
  obtain ⟨hopcode, hoperand⟩ := Prod.mk.inj hfields
  exact Prod.ext (BitVec.eq_of_toNat_eq hopcode) (BitVec.eq_of_toNat_eq hoperand)

/-- A word is made from a pair exactly when the pair holds its fields. -/
theorem eq_wordOfPair_iff {w : WordBytes} {p : Opcode × Operand} :
    w = wordOfPair p ↔ p.1.toNat = w.1.toNat % 16 ∧ p.2.toNat = littleEndian w.1 w.2.1 w.2.2 / 16 := by
  rw [← wordFields_injective.eq_iff, wordFields_wordOfPair, wordFields, Prod.mk_inj]
  exact and_congr eq_comm eq_comm

/-- Every word is made from a pair. -/
theorem wordOfPair_surjective : Function.Surjective wordOfPair := by
  intro w
  have hlt : littleEndian w.1 w.2.1 w.2.2 / 16 < 2 ^ 20 := Nat.div_lt_of_lt_mul (littleEndian_lt ..)
  refine ⟨(BitVec.ofNat 4 w.1.toNat, BitVec.ofNat 20 (littleEndian w.1 w.2.1 w.2.2 / 16)), ?_⟩
  exact (eq_wordOfPair_iff.mpr ⟨BitVec.toNat_ofNat .., (BitVec.toNat_ofNat ..).trans (Nat.mod_eq_of_lt hlt)⟩).symm

/-- An opcode is recognised when its number is (R56). -/
theorem mem_recognised_iff_toNat : ∀ a : Opcode, a ∈ [(4 : Opcode), 7, 11, 14] ↔ a.toNat ∈ [4, 7, 11, 14] := by
  decide

/-- The opcode whose number is field A of a word is what DECODE reads from byte 0 (R94). -/
theorem ofNat_eq_of_toNat_eq_mod {a : Opcode} {n : Nat} (h : a.toNat = n % 16) : BitVec.ofNat 4 n = a :=
  BitVec.eq_of_toNat_eq ((BitVec.toNat_ofNat ..).trans h.symm)

/-! ## What each operation does with a pair -/

/-- ENCODE of a pair succeeds exactly when the operand is at most 32767, with the word made from it (R90). -/
theorem Codec.encode_pair_eq_ok {p : Opcode × Operand} {w : WordBytes} :
    Codec.encode p.1.toNat p.2.toNat = .ok w ↔ p.2.toNat ≤ 32767 ∧ w = wordOfPair p := by
  have hopcode : p.1.toNat < 16 := p.1.isLt
  have hA : (0 : Int) ≤ p.1.toNat ∧ (p.1.toNat : Int) ≤ 15 := by omega
  have hB : ((0 : Int) ≤ p.2.toNat ∧ (p.2.toNat : Int) ≤ 32767) ↔ p.2.toNat ≤ 32767 := by omega
  rw [Codec.encode_eq_ok, and_iff_right hA, hB]
  rfl

/-- DECODE gives a pair exactly when the opcode is recognised and the word is the one made from the pair (R94). -/
theorem Codec.decode_eq_ok {w : WordBytes} {p : Opcode × Operand} :
    Codec.decode [w.1, w.2.1, w.2.2] = .ok p ↔ p.1 ∈ [(4 : Opcode), 7, 11, 14] ∧ w = wordOfPair p := by
  rw [mem_recognised_iff_toNat]
  by_cases hA : w.1.toNat % 16 ∈ [4, 7, 11, 14]
  · obtain ⟨opcode, operand, hd, hfields⟩ := Codec.decode_fields_of_recognised hA
    have hw : w = wordOfPair (opcode, operand) := eq_wordOfPair_iff.mpr hfields
    rw [hd, Except.ok.injEq]
    constructor
    · rintro rfl
      exact ⟨hfields.1 ▸ hA, hw⟩
    · rintro ⟨-, hp⟩
      exact wordOfPair_injective (hw.symm.trans hp)
  · rw [Codec.decode_of_unrecognised hA]
    refine iff_of_false (by simp) ?_
    rintro ⟨hp, hw⟩
    exact hA ((eq_wordOfPair_iff.mp hw).1 ▸ hp)

/-- A pair's word is canonical exactly when the opcode is recognised and the operand is at most 32767 (R58). -/
theorem wordOfPair_canonical_iff {w : WordBytes} {p : Opcode × Operand} (hw : w = wordOfPair p) :
    (w.1.toNat % 16 ∈ [4, 7, 11, 14] ∧ littleEndian w.1 w.2.1 w.2.2 / 2 ^ 19 = 0) ↔
      p.1 ∈ [(4 : Opcode), 7, 11, 14] ∧ p.2.toNat ≤ 32767 := by
  obtain ⟨hopcode, hoperand⟩ := eq_wordOfPair_iff.mp hw
  rw [mem_recognised_iff_toNat, hopcode, hoperand, zeroH_iff, and_iff_right (Nat.zero_le _), Nat.lt_succ_iff]

/-! ## The round trips -/

/-- Settles O8: ENCODE gives the word made from the pair; DECODE gives the pair back where its opcode is recognised, and
otherwise reads the opcode from field A. -/
theorem encodeThenDecode : Obligations.EncodeThenDecode := by
  intro a b hb
  have hoperand : (BitVec.ofNat 20 b).toNat = b := (BitVec.toNat_ofNat ..).trans (Nat.mod_eq_of_lt (by omega))
  obtain ⟨w, hw⟩ : ∃ w, w = wordOfPair (a, BitVec.ofNat 20 b) := ⟨_, rfl⟩
  refine ⟨w.1, w.2.1, w.2.2, ?_, fun ha => Codec.decode_eq_ok.mpr ⟨ha, hw⟩, fun ha => ?_⟩
  · simpa only [hoperand] using Codec.encode_pair_eq_ok.mpr ⟨hoperand.trans_le hb, hw⟩
  · have hA : a.toNat = w.1.toNat % 16 := (eq_wordOfPair_iff.mp hw).1
    rw [mem_recognised_iff_toNat, hA] at ha
    rw [Codec.decode_of_unrecognised ha, ofNat_eq_of_toNat_eq_mod hA]

/-- Settles O9: a word that decodes is the one made from its pair, and ENCODE gives that word or fails. -/
theorem decodeThenEncode : Obligations.DecodeThenEncode := by
  intro b0 b1 b2 a b hd
  obtain ⟨-, hw⟩ := (Codec.decode_eq_ok (w := (b0, b1, b2))).mp hd
  refine ⟨fun hb => Codec.encode_pair_eq_ok.mpr ⟨hb, hw⟩, fun hb => ?_⟩
  cases henc : Codec.encode a.toNat b.toNat with
  | error e => exact ⟨e, rfl⟩
  | ok w =>
    exact absurd (Codec.encode_pair_eq_ok (p := (a, b)).mp henc).1 hb.not_ge

/-- ENCODE determines its request (R100). -/
theorem Codec.encode_injective {a b a' b' : Int} {w : WordBytes} (h : Codec.encode a b = .ok w)
    (h' : Codec.encode a' b' = .ok w) : a = a' ∧ b = b' := by
  obtain ⟨ha, hb, hw⟩ := Codec.encode_eq_ok.mp h
  obtain ⟨ha', hb', hw'⟩ := Codec.encode_eq_ok.mp h'
  obtain ⟨hA, hB⟩ := fields_wordBytes (a := a.toNat) (x := b.toNat) (by omega) (by omega)
  obtain ⟨hA', hB'⟩ := fields_wordBytes (a := a'.toNat) (x := b'.toNat) (by omega) (by omega)
  rw [← hw] at hA hB
  rw [← hw'] at hA' hB'
  omega

/-- There are as many recognised requests as canonical words: each is made from one request (R100). -/
theorem ncard_recognised_requests :
    Set.ncard {p : Opcode × Operand | p.1 ∈ [(4 : Opcode), 7, 11, 14] ∧ p.2.toNat ≤ 32767} = 131072 := by
  have hpreimage : {p : Opcode × Operand | p.1 ∈ [(4 : Opcode), 7, 11, 14] ∧ p.2.toNat ≤ 32767} = wordOfPair ⁻¹'
      {w | w.1.toNat % 16 ∈ [4, 7, 11, 14] ∧ littleEndian w.1 w.2.1 w.2.2 / 2 ^ 19 = 0} :=
    Set.ext fun _ => (wordOfPair_canonical_iff rfl).symm
  rw [hpreimage, Set.ncard_preimage_of_injective_subset_range wordOfPair_injective
    fun w _ => wordOfPair_surjective w, ncard_canonical_words]

/-- Settles O10: on the recognised requests and on the canonical words both operations follow the one bijection. -/
theorem codecIsBijection : Obligations.CodecIsBijection := by
  refine ⟨fun _ _ _ _ _ => Codec.encode_injective, fun w w' p hd hd' => ?_, ncard_recognised_requests,
    ncard_canonical_words, fun p hp => ?_, fun w hw => ?_⟩
  · exact (Codec.decode_eq_ok.mp hd).2.trans (Codec.decode_eq_ok.mp hd').2.symm
  · exact ⟨wordOfPair p, (wordOfPair_canonical_iff rfl).mpr hp, Codec.encode_pair_eq_ok.mpr ⟨hp.2, rfl⟩,
      Codec.decode_eq_ok.mpr ⟨hp.1, rfl⟩⟩
  · obtain ⟨p, rfl⟩ := wordOfPair_surjective w
    have hp := (wordOfPair_canonical_iff rfl).mp hw
    exact ⟨p, hp, Codec.decode_eq_ok.mpr ⟨hp.1, rfl⟩, Codec.encode_pair_eq_ok.mpr ⟨hp.2, rfl⟩⟩

/-! ## ENCODE on all integers -/

/-- Out of range, ENCODE is a RangeError with the two tests as its flags (R91). -/
theorem Codec.encode_of_out_of_range {opcode operand : Int}
    (h : ¬(0 ≤ opcode ∧ opcode ≤ 15) ∨ ¬(0 ≤ operand ∧ operand ≤ 32767)) :
    Codec.encode opcode operand =
      .error ⟨decide (opcode < 0 ∨ 15 < opcode), decide (operand < 0 ∨ 32767 < operand)⟩ := by
  have hbad : (decide (opcode < 0 ∨ 15 < opcode) || decide (operand < 0 ∨ 32767 < operand)) = true := by
    simp only [Bool.or_eq_true, decide_eq_true_eq]
    omega
  exact if_pos hbad

/-- Settles O1: the word of a request in range is below `2^24`, so its bytes give it back. -/
theorem encodeGivesWordOrRangeError : Obligations.EncodeGivesWordOrRangeError := by
  refine fun opcode operand => ⟨fun hA hB => ?_, fun hout => ?_⟩
  · have hword : wordOf opcode.toNat operand.toNat = opcode.toNat + 16 * operand.toNat := wordOf_eq (by omega) _
    have hvalue := littleEndian_byteOf (opcode.toNat + 16 * operand.toNat)
    rw [Nat.mod_eq_of_lt (by omega)] at hvalue
    exact ⟨_, _, _, Codec.encode_eq_ok.mpr ⟨hA, hB, rfl⟩, hvalue.trans hword.symm, by omega, by omega⟩
  · exact ⟨_, _, Codec.encode_of_out_of_range hout, decide_eq_true_iff, decide_eq_true_iff⟩

/-- Settles O2: H = 0 is what characterises the words ENCODE produces; the bounds are arithmetic. -/
theorem encodedWordHasZeroH : Obligations.EncodedWordHasZeroH := by
  intro opcode operand b0 b1 b2 h
  have hH : littleEndian b0 b1 b2 / 2 ^ 19 = 0 := exists_encode_eq_ok_iff.mp ⟨opcode, operand, h⟩
  have hbyte2 : 65536 * b2.toNat ≤ littleEndian b0 b1 b2 := Nat.le_add_left ..
  omega

/-! ## DECODE on all byte sequences -/

/-- A length other than 3 is a FormatError, whatever the bytes are (R94, R152). -/
theorem Codec.decode_of_length_ne {s : List Byte} (h : s.length ≠ 3) : Codec.decode s = .error (.format s.length) := by
  unfold Codec.decode
  split
  · exact absurd rfl h
  · rfl

/-- A three-byte word is an unknown opcode exactly when NAME_OF its field A is none (R101). -/
theorem Codec.decode_eq_unknownOpcode {b0 b1 b2 : Byte} {a : Opcode} :
    Codec.decode [b0, b1, b2] = .error (.unknownOpcode a) ↔ a.toNat = b0.toNat % 16 ∧ nameOf a = none := by
  rw [nameOf_eq_none_iff]
  by_cases hA : b0.toNat % 16 ∈ [4, 7, 11, 14]
  · rw [Codec.decode_of_recognised hA]
    exact iff_of_false (by simp) fun ⟨ha, hnot⟩ => hnot (ha ▸ hA)
  · rw [Codec.decode_of_unrecognised hA, Except.error.injEq, CodecError.unknownOpcode.injEq, eq_comm,
      ← BitVec.toNat_inj, BitVec.toNat_ofNat]
    exact (and_iff_left_of_imp fun ha => ha ▸ hA).symm

/-- Settles O4: the length, the recognised opcodes and the others, one lemma each. -/
theorem decodeSplitsWordOrFails : Obligations.DecodeSplitsWordOrFails := by
  refine ⟨fun _ => Codec.decode_of_length_ne, fun b0 b1 b2 => ⟨fun hA => ?_, fun hA => ?_⟩⟩
  · obtain ⟨opcode, operand, hd, hopcode, hoperand⟩ := Codec.decode_fields_of_recognised (w := (b0, b1, b2)) hA
    refine ⟨opcode, operand, hd, hopcode.trans (littleEndian_mod_16 b0 b1 b2).symm, hopcode, hoperand, ?_⟩
    simp only [hoperand, littleEndian]
    omega
  · exact ⟨_, BitVec.toNat_ofNat .., Codec.decode_of_unrecognised hA b1 b2⟩

/-- The words that decode are those with a recognised opcode (R94). -/
theorem Codec.exists_decode_eq_ok_iff {w : WordBytes} :
    (∃ p, Codec.decode [w.1, w.2.1, w.2.2] = .ok p) ↔ w.1.toNat % 16 ∈ [4, 7, 11, 14] := by
  by_cases hA : w.1.toNat % 16 ∈ [4, 7, 11, 14]
  · exact iff_of_true ⟨_, Codec.decode_of_recognised hA _ _⟩ hA
  · simp [Codec.decode_of_unrecognised hA, hA]

/-- The three-byte words that are unknown opcodes are the others (R95). -/
theorem Codec.exists_decode_eq_unknownOpcode_iff {w : WordBytes} :
    (∃ a, Codec.decode [w.1, w.2.1, w.2.2] = .error (.unknownOpcode a)) ↔ w.1.toNat % 16 ∉ [4, 7, 11, 14] := by
  by_cases hA : w.1.toNat % 16 ∈ [4, 7, 11, 14]
  · simp [Codec.decode_of_recognised hA, hA]
  · exact iff_of_true ⟨_, Codec.decode_of_unrecognised hA _ _⟩ hA

/-- There are 4194304 words with a recognised opcode (R97). -/
theorem ncard_recognised_words : Set.ncard {w : WordBytes | w.1.toNat % 16 ∈ [4, 7, 11, 14]} = 4194304 := by
  have hbits : ∀ w, 0 ≤ (wordFields w).2 ∧ (wordFields w).2 < 1048576 := fun w =>
    ⟨Nat.zero_le _, Nat.div_lt_of_lt_mul (littleEndian_lt ..)⟩
  exact ncard_words lt_16_of_mem_recognisedOpcodes le_rfl fun w =>
    mem_recognisedOpcodes_iff.symm.trans (and_iff_left (hbits w)).symm

/-- Settles O6: which words decode is decided by field A, and the two classes are counted by their fields. -/
theorem decodeIsTotalWithCounts : Obligations.DecodeIsTotalWithCounts := by
  dsimp only [Obligations.DecodeIsTotalWithCounts]
  simp only [Codec.exists_decode_eq_ok_iff, Codec.exists_decode_eq_unknownOpcode_iff]
  refine ⟨fun s => ?_, ncard_recognised_words, ncard_illegal_words⟩
  rcases Codec.decode s with (n | a) | p
  · exact .inr (.inl ⟨n, rfl⟩)
  · exact .inr (.inr ⟨a, rfl⟩)
  · exact .inl ⟨p, rfl⟩

/-! ## Names and opcodes -/

/-- NAME_OF undoes OPCODE_OF (R101). -/
@[simp] theorem nameOf_opcodeOf (n : OpName) : nameOf (opcodeOf n) = some n := by
  cases n <;> rfl

/-- OPCODE_OF undoes NAME_OF where there is a name (R101). -/
theorem opcodeOf_of_nameOf {a : Opcode} {n : OpName} (h : nameOf a = some n) : opcodeOf n = a := by
  revert a
  cases n <;> decide

/-- Settles O11: the lookups row by row, and DECODE's test by its own lemma. -/
theorem nameAndOpcodeLookup : Obligations.NameAndOpcodeLookup := by
  refine ⟨rfl, rfl, rfl, rfl, nameOf_opcodeOf, fun _ _ => opcodeOf_of_nameOf, fun a ha => ?_,
    fun _ _ _ _ => Codec.decode_eq_unknownOpcode⟩
  exact (nameOf_eq_none_iff a).mpr (mt (mem_recognised_iff_toNat a).mpr ha)

end Sys2Proof
end

section
/-! A step is DECODE of the slot and then the named instruction or a halt (spec/40_codec_operations.md R105): the decoder of
terms that a step uses agrees with DECODE, and a word it reads as an illegal row halts with DECODE's error. -/

namespace Sys2Proof

/-- The opcode map's row for a named opcode is the instruction of that name (R56, R101). -/
theorem instrOf_of_nameOf {a : Opcode} {n : OpName} (h : nameOf a = some n) (b : Nat) : instrOf a b = instrNamed n b := by
  obtain rfl := opcodeOf_of_nameOf h
  cases n <;> rfl

/-- The name of the opcode map's row is NAME_OF its opcode (R101). -/
theorem instrOf_name (a : Opcode) (b : Nat) : (instrOf a b).name = nameOf a := by
  rw [← nameOf_opcode, (instrOf_fields a b).1, BitVec.ofNat_toNat, BitVec.setWidth_eq]

/-- The decoder of terms reads every three-byte word by the opcode map (R56). -/
theorem decode_word (b0 b1 b2 : Byte) :
    decode [b0, b1, b2] = .ok (instrOf (BitVec.ofNat 4 b0.toNat) (littleEndian b0 b1 b2 / 16)) := by
  rw [decode, ofNat_fieldA_littleEndian, fieldHB_eq]

/-- Where DECODE gives a pair, the decoder of terms gives the named instruction with the operand (R105). -/
theorem decode_of_codec_ok {bytes : List Byte} {a : Opcode} {b : Operand} (h : Codec.decode bytes = .ok (a, b)) :
    ∃ n, nameOf a = some n ∧ decode bytes = .ok (instrNamed n b.toNat) := by
  by_cases hlen : bytes.length = 3
  · obtain ⟨b0, b1, b2, rfl⟩ := List.length_eq_three.mp hlen
    obtain ⟨ha, hw⟩ := (Codec.decode_eq_ok (w := (b0, b1, b2))).mp h
    obtain ⟨hopcode, hoperand⟩ := eq_wordOfPair_iff.mp hw
    have hname : nameOf a ≠ none := fun hnone => (nameOf_eq_none_iff a).mp hnone ((mem_recognised_iff_toNat a).mp ha)
    obtain ⟨n, hn⟩ := Option.ne_none_iff_exists'.mp hname
    exact ⟨n, hn, by rw [decode_word, ofNat_eq_of_toNat_eq_mod hopcode, instrOf_of_nameOf hn, hoperand]⟩
  · rw [Codec.decode_of_length_ne hlen] at h
    cases h

/-- Where DECODE fails, the decoder of terms fails alike, or gives the illegal row of the opcode found (R57, R105). -/
theorem decode_of_codec_error {bytes : List Byte} {e : CodecError} (h : Codec.decode bytes = .error e) :
    decode bytes = .error e ∨
      ∃ i, decode bytes = .ok i ∧ i.name = none ∧ e = .unknownOpcode (BitVec.ofNat 4 i.opcode) := by
  by_cases hlen : bytes.length = 3
  · obtain ⟨b0, b1, b2, rfl⟩ := List.length_eq_three.mp hlen
    by_cases hA : b0.toNat % 16 ∈ [4, 7, 11, 14]
    · rw [Codec.decode_of_recognised hA] at h
      cases h
    · rw [Codec.decode_of_unrecognised hA] at h
      cases h
      refine .inr ⟨_, decode_word b0 b1 b2, ?_, ?_⟩
      · rw [instrOf_name]
        exact (nameOf_eq_none_iff _).mpr hA
      · simp only [instrOf_fields, BitVec.ofNat_toNat, BitVec.setWidth_eq]
  · rw [Codec.decode_of_length_ne hlen] at h
    cases h
    exact .inl (decode_eq_error.mpr ⟨hlen, rfl⟩)

end Sys2Proof

namespace Sys2Proof.Machine

variable {s : State}

/-- The meaning of an illegal row: the run halts in place with the opcode found (R57, R153). -/
theorem exec_eq_raise_of_name_none {i : Instr} (hi : i.name = none) (s : State) :
    exec i s = .next (s.raise (.codec (.unknownOpcode (BitVec.ofNat 4 i.opcode)))) := by
  cases i <;> simp only [Instr.name, reduceCtorEq] at hi <;> rfl

/-- Before the end of the program, a step is the meaning of the term in its slot (R120). -/
theorem step_of_decode_ok (hrun : s.status = .running) (hip : s.ip < instructionCount s.image) {i : Instr}
    (h : decode s.fetch = .ok i) : step s = exec i s := by
  simp [step, hrun, State.atEnd, Nat.not_le.mpr hip, h]

/-- Before the end of the program, a step of a slot that is no word halts on the error (R120, R162). -/
theorem step_of_decode_error (hrun : s.status = .running) (hip : s.ip < instructionCount s.image) {e : CodecError}
    (h : decode s.fetch = .error e) : step s = .next (s.raise (.codec e)) := by
  simp [step, hrun, State.atEnd, Nat.not_le.mpr hip, h]

/-- A step halts on every error of DECODE, whether the decoder of terms reports it or the illegal row does (R105). -/
theorem step_of_codec_error (hrun : s.status = .running) (hip : s.ip < instructionCount s.image) {e : CodecError}
    (h : Codec.decode s.fetch = .error e) : step s = .next (s.raise (.codec e)) := by
  obtain herr | ⟨i, hok, hname, rfl⟩ := decode_of_codec_error h
  · exact step_of_decode_error hrun hip herr
  · rw [step_of_decode_ok hrun hip hok, exec_eq_raise_of_name_none hname]

/-- A slot below the instruction count has one to three bytes (R47). -/
theorem length_slot_bounds {image : List Byte} {k : Nat} (h : k < instructionCount image) :
    1 ≤ (slot image k).length ∧ (slot image k).length ≤ 3 := by
  simp only [instructionCount] at h
  simp only [slot, imgRead, List.length_take, List.length_drop]
  omega

/-- Settles O30: a pair is a named instruction, every error of DECODE halts, and a slot before the end is not empty. -/
theorem stepFollowsDecode : Obligations.StepFollowsDecode := by
  refine fun s hrun hip => ⟨fun a b h => ?_, fun e => step_of_codec_error hrun hip, length_slot_bounds hip⟩
  obtain ⟨n, hn, hdecode⟩ := decode_of_codec_ok h
  exact ⟨n, hn, step_of_decode_ok hrun hip hdecode⟩

end Sys2Proof.Machine
end

section
/-! What the four named instructions do, each in full (spec/41_coded_instructions.md R122 to R125). -/

namespace Sys2Proof

/-- A word whose field A is the opcode of a name decodes to the instruction of that name (R56, R101). -/
theorem decode_of_opcodeOf {name : OpName} {b0 : Byte} (h : b0.toNat % 16 = (opcodeOf name).toNat) (b1 b2 : Byte) :
    decode [b0, b1, b2] = .ok (instrNamed name (littleEndian b0 b1 b2 / 16)) := by
  rw [decode_word, ofNat_eq_of_toNat_eq_mod h.symm, instrOf_of_nameOf (nameOf_opcodeOf name)]

end Sys2Proof

namespace Sys2Proof.Machine

variable {s : State} {b : Nat}

/-- An error taken after the step entry was recorded, field by field; the stack is what the instruction left (R121, R162). -/
theorem State.raise_recordStep (s : State) (name : OpName) (b : Nat) (stack : List Cell) (e : RunError) :
    State.raise { s.recordStep name b with stack := stack } e = { s with
      stack := stack
      status := .haltedError
      error := some ⟨e, s.ip⟩
      trace := s.trace ++ [.step s.ip name b s.stack, .error s.ip e] } := by
  simp [State.raise, State.recordStep]

/-! ## Pushing -/

/-- Settles O20: `load_const` has no case to distinguish. -/
theorem loadConstPushesOperand : Obligations.LoadConstPushesOperand :=
  ⟨fun _ b1 b2 h => decode_of_opcodeOf (name := .loadConst) h b1 b2, fun _ _ => rfl⟩

/-- A value read from a cell inside the memory goes into the next state (R39, R120). -/
theorem settle_memRead_of_inside (h : b < s.memSize) (f : Cell → State) :
    settle s ((s.memRead (effectiveAddress b)).map f) = .next (f (Memory.read s.mem b)).advance := by
  rw [State.memRead_effectiveAddress, if_pos h]
  rfl

/-- A read outside the memory halts, whatever was to be done with the value (R39, R120). -/
theorem settle_memRead_of_outside (h : s.memSize ≤ b) (f : Cell → State) :
    settle s ((s.memRead (effectiveAddress b)).map f) = .next (s.raise (.addressRange b)) := by
  rw [State.memRead_effectiveAddress, if_neg h.not_gt]
  rfl

/-- Settles O21: the address decides between the two cases. -/
theorem readValuePushesCell : Obligations.ReadValuePushesCell := by
  refine ⟨fun _ b1 b2 h => decode_of_opcodeOf (name := .readValue) h b1 b2, fun b s => ⟨fun h => ?_, fun h => ?_⟩⟩
  · exact settle_memRead_of_inside (s := s.recordStep .readValue b) h _
  · exact (settle_memRead_of_outside (s := s.recordStep .readValue b) h _).trans
      (congrArg _ (State.raise_recordStep s .readValue b s.stack _))

theorem signOf_of_pos {v : Cell} (h : 0 < v) : signOf v = 1 := if_pos h

theorem signOf_of_neg {v : Cell} (h : v < 0) : signOf v = -1 := by
  rw [signOf, if_neg h.not_gt, if_pos h]

@[simp] theorem signOf_zero : signOf 0 = 0 := rfl

/-- Settles O23: the value pushed is `signOf` of the cell. -/
theorem sgnPushesSignOfCell : Obligations.SgnPushesSignOfCell := by
  refine ⟨fun _ b1 b2 h => decode_of_opcodeOf (name := .sgn) h b1 b2, fun b s => ⟨fun h => ?_, fun h => ?_⟩⟩
  · exact ⟨_, signOf_of_pos, signOf_of_neg, fun h0 => h0 ▸ signOf_zero,
      settle_memRead_of_inside (s := s.recordStep .sgn b) h _⟩
  · exact (settle_memRead_of_outside (s := s.recordStep .sgn b) h _).trans
      (congrArg _ (State.raise_recordStep s .sgn b s.stack _))

/-! ## Storing -/

/-- `write_value` on the empty stack, whatever the address is (R124, R154). -/
theorem exec_writeValue_of_nil (hs : s.stack = []) :
    exec (.writeValue b) s = .next ((s.recordStep .writeValue b).raise .stackUnderflow) := by
  simp only [exec, execWriteValue, State.pop, State.recordStep_stack, hs, settle]

/-- `write_value` with a value to pop: the address decides, after the pop (R124). -/
theorem exec_writeValue_of_cons {v : Cell} {rest : List Cell} (hs : s.stack = v :: rest) :
    exec (.writeValue b) s = .next
      (if b < s.memSize then
        State.advance { s.recordStep .writeValue b with stack := rest, mem := Memory.write s.mem b v }
      else State.raise { s.recordStep .writeValue b with stack := rest } (.addressRange b)) := by
  simp only [exec, execWriteValue, State.pop, State.recordStep_stack, hs, State.memWrite_effectiveAddress,
    State.recordStep_memSize]
  split <;> rfl

/-- Settles O22: the empty stack comes first, then the address; the cells after a store are those of `Memory.write`. -/
theorem writeValuePopsThenStores : Obligations.WriteValuePopsThenStores := by
  refine ⟨fun _ b1 b2 h => decode_of_opcodeOf (name := .writeValue) h b1 b2, fun b s v rest hwf hs h => ?_,
    fun b s hs => ?_, fun b s v rest hs h => ?_⟩
  · rw [exec_writeValue_of_cons hs, if_pos h]
    exact ⟨_, rfl, rfl, Memory.read_write_same hwf b v, fun a ha => Memory.read_write_other hwf ha v⟩
  · rw [exec_writeValue_of_nil hs]
    exact congrArg _ (State.raise_recordStep s .writeValue b s.stack _)
  · rw [exec_writeValue_of_cons hs, if_neg h.not_gt, State.raise_recordStep]

end Sys2Proof.Machine
end

section
/-! Said once over all named instructions: each completes, appending its step entry and moving `ip` on by one, or fails in
place. What a step can do follows (spec/41_coded_instructions.md R120, R121, R127, R132). -/

namespace Sys2Proof

theorem Instr.name_eq_writeValue_iff {i : Instr} : i.name = some .writeValue ↔ ∃ b, i = .writeValue b := by
  cases i <;> simp [Instr.name]

end Sys2Proof

namespace Sys2Proof.Machine

variable {s t : State}

/-- What an instruction with a name and an operand leaves: it completed with some stack and memory, one value popped by
`write_value` and one pushed by every other name; or it failed after its step entry, on an error that is not DECODE's, with at
most one value popped. -/
inductive NamedOutcome (name : OpName) (operand : Nat) (s : State) : State → Prop
  | completed {stack : List Cell} {mem : Memory}
      (hstack : (name = .writeValue ∧ ∃ v, s.stack = v :: stack) ∨ (name ≠ .writeValue ∧ ∃ v, stack = v :: s.stack)) :
      NamedOutcome name operand s
        (State.advance { s.recordStep name operand with stack := stack, mem := mem })
  | failed {stack : List Cell} {e : RunError} (hstack : stack = s.stack ∨ ∃ v, s.stack = v :: stack)
      (he : ∀ c, e ≠ .codec c) :
      NamedOutcome name operand s (State.raise { s.recordStep name operand with stack := stack } e)

/-- Every named instruction has such an outcome (R122 to R125). -/
theorem namedOutcome_of_exec {i : Instr} {name : OpName} (hname : i.name = some name) (h : exec i s = .next t) :
    NamedOutcome name i.operand s t := by
  cases i <;> cases hname
  case loadConst b =>
    obtain rfl := execLoadConst_cases h
    exact .completed (.inr ⟨by decide, _, rfl⟩)
  case readValue b =>
    obtain ⟨-, rfl⟩ | ⟨-, rfl⟩ := execReadValue_cases h
    · exact .completed (.inr ⟨by decide, _, rfl⟩)
    · exact .failed (.inl rfl) (by simp)
  case writeValue b =>
    obtain ⟨-, rfl⟩ | ⟨v, rest, hs, -, rfl⟩ | ⟨v, rest, hs, -, rfl⟩ := execWriteValue_cases h
    · exact .failed (.inl rfl) (by simp)
    · exact .completed (.inl ⟨rfl, v, hs⟩)
    · exact .failed (.inr ⟨v, hs⟩) (by simp)
  case sgn b =>
    obtain ⟨-, rfl⟩ | ⟨-, rfl⟩ := execSgn_cases h
    · exact .completed (.inr ⟨by decide, _, rfl⟩)
    · exact .failed (.inl rfl) (by simp)

/-- What a step of a running state leaves: the run completed, the slot gave a decode error, or its instruction was executed. -/
inductive StepOutcome (s : State) : State → Prop
  | ended (hend : instructionCount s.image ≤ s.ip) : StepOutcome s s.complete
  | undecoded (hip : s.ip < instructionCount s.image) (c : CodecError) : StepOutcome s (s.raise (.codec c))
  | executed (hip : s.ip < instructionCount s.image) {i : Instr} {name : OpName} (hdecode : decode s.fetch = .ok i)
      (hname : i.name = some name) {t : State} (h : NamedOutcome name i.operand s t) : StepOutcome s t

/-- Every step has such an outcome; an illegal word is a decode error (R57, R120). -/
theorem stepOutcome_of_step (h : step s = .next t) : StepOutcome s t := by
  obtain ⟨-, ⟨hend, rfl⟩ | ⟨hip, e, -, rfl⟩ | ⟨hip, i, hdecode, hexec⟩⟩ := step_cases h
  · exact .ended hend
  · exact .undecoded hip e
  · cases hname : i.name with
    | none =>
      obtain rfl := exec_of_name_none hname hexec
      exact .undecoded hip _
    | some name => exact .executed hip hdecode hname (namedOutcome_of_exec hname hexec)

/-- Only a running state has a next state (R130). -/
theorem running_of_step (h : step s = .next t) : s.status = .running := (step_cases h).1

/-- Taking or passing on, `settle` answers a next state. -/
theorem exists_settle_eq_next (s : State) (r : Except RunError State) : ∃ t, settle s r = .next t := by
  cases r <;> exact ⟨_, rfl⟩

/-- Every instruction answers a next state in every state (R57, R162). -/
theorem exists_exec_eq_next (i : Instr) (s : State) : ∃ t, exec i s = .next t := by
  cases i
  case loadConst b => exact ⟨_, rfl⟩
  case readValue b => exact exists_settle_eq_next ..
  case writeValue b =>
    simp only [exec, execWriteValue]
    split <;> exact exists_settle_eq_next ..
  case sgn b => exact exists_settle_eq_next ..
  all_goals exact ⟨_, exec_eq_raise_of_name_none rfl s⟩

/-- A running state at the end of the program completes (R120, R188). -/
theorem step_of_atEnd (hrun : s.status = .running) (hend : instructionCount s.image ≤ s.ip) :
    step s = .next s.complete := by
  simp [step, hrun, State.atEnd, hend]

/-- A running state has a next state (R120). -/
theorem exists_step_of_running (h : s.status = .running) : ∃ t, step s = .next t := by
  by_cases hend : instructionCount s.image ≤ s.ip
  · exact ⟨_, step_of_atEnd h hend⟩
  · cases hdecode : decode s.fetch with
    | error e => exact ⟨_, step_of_decode_error h (by omega) hdecode⟩
    | ok i =>
      rw [step_of_decode_ok h (by omega) hdecode]
      exact exists_exec_eq_next i s

/-! ## What every step keeps -/

/-- Settles O35: `ip` moves only where an instruction completes, and there the state goes on running. -/
theorem ipOnlyIncrements : Obligations.IpOnlyIncrements := by
  intro s t h
  have hrun : s.status = .running := running_of_step h
  cases stepOutcome_of_step h with
  | ended hend => simp [hend]
  | undecoded hip c => simp
  | executed hip hdecode hname hout =>
    cases hout with
    | completed hstack => simp [hrun]
    | failed hstack he => simp

/-- Every step keeps `ip` where the status says it is (R16, R130). -/
theorem step_keeps_ipOk (h : step s = .next t) (hs : s.IpOk) : t.IpOk := by
  have hrun : s.status = .running := running_of_step h
  have hle : s.ip ≤ instructionCount s.image := hs.1
  cases stepOutcome_of_step h with
  | ended hend => exact ⟨hle, fun _ => hle.antisymm hend, by simp⟩
  | undecoded hip c => exact ⟨hle, by simp, fun _ => hip⟩
  | executed hip hdecode hname hout =>
    cases hout with
    | completed hstack => exact ⟨hip, by simp [hrun], by simp [hrun]⟩
    | failed hstack he => exact ⟨hle, by simp, fun _ => hip⟩

/-- Every step keeps the error record absent but in HALTED_ERROR, where it names `ip` (R19, R162). -/
theorem step_keeps_errorOk (h : step s = .next t) (hs : s.ErrorOk) : t.ErrorOk := by
  have hrun : s.status = .running := running_of_step h
  have hnone : s.error = none := hs.2 (by simp [hrun])
  cases stepOutcome_of_step h with
  | ended hend => simp [State.ErrorOk, hnone]
  | undecoded hip c => simp [State.ErrorOk]
  | executed hip hdecode hname hout =>
    cases hout with
    | completed hstack => simp [State.ErrorOk, hrun, hnone]
    | failed hstack he => simp [State.ErrorOk]

/-- Every step keeps the stack no deeper than `ip`: only a completed instruction pushes (R132). -/
theorem step_keeps_depthOk (h : step s = .next t) (hs : s.DepthOk) : t.DepthOk := by
  simp only [State.DepthOk, State.stackDepth] at hs ⊢
  cases stepOutcome_of_step h with
  | ended hend => exact hs
  | undecoded hip c => exact hs
  | executed hip hdecode hname hout =>
    cases hout with
    | completed hstack =>
      obtain ⟨-, v, hpop⟩ | ⟨-, v, rfl⟩ := hstack
      · rw [hpop, List.length_cons] at hs
        exact (Nat.le_of_succ_le hs).trans (Nat.le_succ _)
      · exact Nat.succ_le_succ hs
    | failed hstack he =>
      obtain rfl | ⟨v, hpop⟩ := hstack
      · exact hs
      · rw [hpop, List.length_cons] at hs
        exact Nat.le_of_succ_le hs

end Sys2Proof.Machine
end

section
/-! Whole runs: how they end, what their trace holds, and how deep their stack is (spec/41_coded_instructions.md R130, R132,
R134). -/

namespace Sys2Proof.Machine

variable {s t : State}

/-! ## The passes of a run -/

/-- A pass is a step followed by the passes after it (R120). -/
theorem runFor_of_step (h : step s = .next t) (k : Nat) : runFor (k + 1) s = runFor k t := by
  simp only [runFor, h]

/-- Nothing executes once the run is over (R130). -/
theorem runFor_of_not_running (h : s.status ≠ .running) (k : Nat) : runFor k s = s := by
  cases k with
  | zero => rfl
  | succ k =>
    rw [runFor]
    split
    · exact absurd (running_of_step ‹_›) h
    · rfl
    · rfl

/-- The last pass of a run is a step, or does nothing because the run was over (R120, R130). -/
theorem runFor_succ_cases (k : Nat) (s : State) :
    step (runFor k s) = .next (runFor (k + 1) s) ∨
      ((runFor k s).status ≠ .running ∧ runFor (k + 1) s = runFor k s) := by
  induction k generalizing s with
  | zero =>
    by_cases hrun : s.status = .running
    · obtain ⟨t, ht⟩ := exists_step_of_running hrun
      exact .inl (ht.trans (congrArg _ (runFor_of_step ht 0).symm))
    · exact .inr ⟨hrun, runFor_of_not_running hrun 1⟩
  | succ k ih =>
    by_cases hrun : s.status = .running
    · obtain ⟨t, ht⟩ := exists_step_of_running hrun
      rw [runFor_of_step ht, runFor_of_step ht]
      exact ih t
    · simp only [runFor_of_not_running hrun]
      exact .inr ⟨hrun, trivial⟩

/-- While a run goes on, every pass has moved `ip` on by one (R127). -/
theorem runFor_ip_of_running {k : Nat} (h : (runFor k s).status = .running) : (runFor k s).ip = s.ip + k := by
  induction k with
  | zero => rfl
  | succ k ih =>
    obtain hstep | ⟨hover, heq⟩ := runFor_succ_cases k s
    · have hip : (runFor (k + 1) s).ip = (runFor k s).ip + 1 := (ipOnlyIncrements _ _ hstep).1 h
      rw [hip, ih (running_of_step hstep), Nat.add_assoc]
    · exact absurd (heq ▸ h) hover

theorem runFor_image (k : Nat) (s : State) : (runFor k s).image = s.image :=
  runFor_keeps (P := fun u => u.image = s.image) (fun hst hs => (step_keeps_image_memSize hst).1.trans hs) k rfl

/-! ## How a run ends -/

section Start

variable (image : List Byte) (size : Nat) (mem0 : Memory)

theorem runFor_start_ipOk (k : Nat) : (runFor k (State.start image size mem0)).IpOk :=
  runFor_keeps step_keeps_ipOk k ⟨Nat.zero_le _, by simp, by simp⟩

theorem runFor_start_errorOk (k : Nat) : (runFor k (State.start image size mem0)).ErrorOk :=
  runFor_keeps step_keeps_errorOk k ⟨by simp, fun _ => rfl⟩

theorem runFor_start_depthOk (k : Nat) : (runFor k (State.start image size mem0)).DepthOk :=
  runFor_keeps step_keeps_depthOk k (Nat.zero_le _)

/-- A run is over after one pass for each slot and one more: otherwise `ip` would be past the last slot (R131). -/
theorem run_status_ne_running : (run image size mem0).status ≠ .running := by
  intro hrun
  have hip : (run image size mem0).ip = 0 + (instructionCount image + 1) := runFor_ip_of_running hrun
  have hle : (run image size mem0).ip ≤ instructionCount (run image size mem0).image :=
    (runFor_start_ipOk image size mem0 _).1
  rw [hip, run, runFor_image, State.start_image] at hle
  omega

/-- A run ends COMPLETED at the end of the program, or halted on an error at a slot before it (R130). -/
theorem run_end_cases :
    let final := run image size mem0
    (final.status = .completed ∧ final.ip = instructionCount image ∧ final.error = none) ∨
      (final.status = .haltedError ∧ final.ip < instructionCount image ∧ ∃ e, final.error = some ⟨e, final.ip⟩) := by
  intro final
  have himage : final.image = image := runFor_image ..
  obtain ⟨-, hcompleted, hhalted⟩ : final.IpOk := runFor_start_ipOk ..
  obtain ⟨herror, hnone⟩ : final.ErrorOk := runFor_start_errorOk ..
  rw [himage] at hcompleted hhalted
  cases hst : final.status with
  | running => exact absurd hst (run_status_ne_running image size mem0)
  | completed => exact .inl ⟨rfl, hcompleted hst, hnone (by simp [hst])⟩
  | haltedError => exact .inr ⟨rfl, hhalted hst, herror hst⟩

end Start

/-- Settles O44: a run is over after its passes, so the invariants of `ip` and the error record say how it ended. -/
theorem terminationStates : Obligations.TerminationStates := by
  refine ⟨fun image size mem0 => ⟨run_end_cases image size mem0, fun t h => ?_⟩, fun size mem0 => ?_⟩
  · exact run_status_ne_running image size mem0 (running_of_step h)
  · have hend : instructionCount [] ≤ 0 := by decide
    exact runFor_of_step (step_of_atEnd (s := State.start [] size mem0) rfl hend) 0

/-! ## The depth of the stack -/

/-- Settles O46: what an instruction does to the depth is part of its outcome; the bounds are invariants of a run. -/
theorem stackDepthIsBounded : Obligations.StackDepthIsBounded := by
  refine ⟨fun i s t h hip => ?_, fun image size mem0 k => ?_, [0x5E, 0x00, 0x00], by decide, by decide⟩
  · cases hname : i.name with
    | none => simp [exec_of_name_none hname h] at hip
    | some name =>
      cases namedOutcome_of_exec hname h with
      | failed hstack he => simp at hip
      | completed hstack =>
        have hwrite : name = .writeValue ↔ ∃ b, i = .writeValue b := by
          rw [← Instr.name_eq_writeValue_iff, hname, Option.some.injEq]
        obtain ⟨hw, v, hpop⟩ | ⟨hw, v, rfl⟩ := hstack
        · exact ⟨fun _ _ => (congrArg List.length hpop).symm, fun hne => absurd (hwrite.mp hw) (not_exists.mpr hne)⟩
        · exact ⟨fun b hb => absurd (hwrite.mpr ⟨b, hb⟩) hw, fun _ => rfl⟩
  · have hdepth := runFor_start_depthOk image size mem0 k
    have hip := (runFor_start_ipOk image size mem0 k).1
    rw [runFor_image] at hip
    exact ⟨hdepth, hdepth.trans hip⟩

/-! ## The trace of a run -/

/-- The step entries of the slots below `k`, in `ip` order, of the run from `s0`: each with the decoded name and operand, and
the stack before its pass (R134). -/
inductive StepEntries (s0 : State) : Nat → List TraceEntry → Prop
  | nil : StepEntries s0 0 []
  | concat {k : Nat} {entries : List TraceEntry} {i : Instr} {name : OpName} (h : StepEntries s0 k entries)
      (hdecode : decode (slot s0.image k) = .ok i) (hname : i.name = some name) :
      StepEntries s0 (k + 1) (entries ++ [.step k name i.operand (runFor k s0).stack])

section StepEntries

variable {s0 : State} {k : Nat} {entries : List TraceEntry}

theorem StepEntries.length_eq (h : StepEntries s0 k entries) : entries.length = k := by
  induction h with
  | nil => rfl
  | concat h hdecode hname ih => simp [ih]

theorem StepEntries.stepIp_isSome (h : StepEntries s0 k entries) : ∀ entry ∈ entries, entry.stepIp.isSome = true := by
  induction h with
  | nil => simp
  | concat h hdecode hname ih =>
    rw [List.forall_mem_append]
    exact ⟨ih, by simp [TraceEntry.stepIp]⟩

/-- Entry `j` is that of slot `j`, in any trace that begins with the entries. -/
theorem StepEntries.getElem?_eq {all : List TraceEntry} (h : StepEntries s0 k entries) (hbegins : entries <+: all)
    {j : Nat} (hj : j < k) :
    ∃ i name, decode (slot s0.image j) = .ok i ∧ i.name = some name ∧
      all[j]? = some (.step j name i.operand (runFor j s0).stack) := by
  induction h with
  | nil => omega
  | @concat k entries i name h hdecode hname ih =>
    obtain hlt | rfl := Nat.lt_succ_iff_lt_or_eq.mp hj
    · exact ih ((List.prefix_append ..).trans hbegins) hlt
    · obtain ⟨rest, rfl⟩ := hbegins
      exact ⟨i, name, hdecode, hname, by simp [h.length_eq]⟩

/-- The trace of a state of the run from `s0` (R121, R134): the step entries of the completed instructions, and in
HALTED_ERROR the error entry, before it the failing instruction's own step entry where the error is not DECODE's. -/
def TraceFrom (s0 s : State) : Prop :=
  (s.status ≠ .haltedError → StepEntries s0 s.ip s.trace) ∧
  (s.status = .haltedError → ∃ before e, s.trace = before ++ [.error s.ip e] ∧ s.error = some ⟨e, s.ip⟩ ∧
    ((StepEntries s0 s.ip before ∧ ∃ c, e = .codec c) ∨
      (StepEntries s0 (s.ip + 1) before ∧ ∀ c, e ≠ .codec c)))

/-- The pass that finds the state `s` of the run keeps the form of the trace (R120). -/
theorem step_keeps_traceFrom (hpass : runFor s.ip s0 = s) (h : step s = .next t) (hs : TraceFrom s0 s) :
    TraceFrom s0 t := by
  have hrun : s.status = .running := running_of_step h
  have hentries : StepEntries s0 s.ip s.trace := hs.1 (by simp [hrun])
  cases stepOutcome_of_step h with
  | ended hend => exact ⟨fun _ => hentries, by simp⟩
  | undecoded hip c => exact ⟨by simp, fun _ => ⟨s.trace, .codec c, rfl, rfl, .inl ⟨hentries, c, rfl⟩⟩⟩
  | @executed hip i name hdecode hname _ hout =>
    have himage : s.image = s0.image := hpass ▸ runFor_image s.ip s0
    have hrecorded : StepEntries s0 (s.ip + 1) (s.recordStep name i.operand).trace := by
      rw [State.fetch, himage] at hdecode
      simpa only [State.recordStep_trace, hpass] using hentries.concat hdecode hname
    cases hout with
    | completed hstack => exact ⟨fun _ => hrecorded, by simp [hrun]⟩
    | @failed stack e hstack he => exact ⟨by simp, fun _ => ⟨_, e, rfl, rfl, .inr ⟨hrecorded, he⟩⟩⟩

end StepEntries

/-- The trace of a run has its form after every pass (R134). -/
theorem traceFrom_runFor (image : List Byte) (size : Nat) (mem0 : Memory) (k : Nat) :
    TraceFrom (State.start image size mem0) (runFor k (State.start image size mem0)) := by
  induction k with
  | zero => exact ⟨fun _ => .nil, by simp [runFor]⟩
  | succ k ih =>
    obtain hstep | ⟨-, heq⟩ := runFor_succ_cases k (State.start image size mem0)
    · have hip := runFor_ip_of_running (running_of_step hstep)
      rw [State.start_ip, Nat.zero_add] at hip
      exact step_keeps_traceFrom (congrArg (runFor · _) hip) hstep ih
    · exact heq ▸ ih

/-- Settles O45: the form of the trace after the last pass, read entry by entry. -/
theorem traceOfARun : Obligations.TraceOfARun := by
  intro image size mem0 s0 final
  obtain ⟨hgoing, hhalted⟩ : TraceFrom s0 final := traceFrom_runFor ..
  refine ⟨fun j hj => ?_, fun hst => (hgoing (by simp [hst])).length_eq, fun hst => ?_⟩
  · by_cases hst : final.status = .haltedError
    · obtain ⟨before, e, htrace, -, ⟨hbefore, -⟩ | ⟨hbefore, -⟩⟩ := hhalted hst
      · exact hbefore.getElem?_eq ⟨_, htrace.symm⟩ hj
      · exact hbefore.getElem?_eq ⟨_, htrace.symm⟩ (Nat.lt_succ_of_lt hj)
    · exact (hgoing hst).getElem?_eq (List.prefix_refl _) hj
  · obtain ⟨before, e, htrace, herror, ⟨hbefore, hcodec⟩ | ⟨hbefore, -⟩⟩ := hhalted hst
    · exact ⟨before, e, htrace, herror, hbefore.stepIp_isSome, .inl ⟨hbefore.length_eq, hcodec⟩⟩
    · exact ⟨before, e, htrace, herror, hbefore.stepIp_isSome,
        .inr ⟨hbefore.length_eq, hbefore.getElem?_eq (List.prefix_refl _) (Nat.lt_succ_self _)⟩⟩

end Sys2Proof.Machine
end

section
/-! How the slot at `ip` can fail, said once: which error, and the state in which it is taken. What a halting step leaves
and when each error arises follow (spec/60_exceptions.md R152 to R155, R161 to R163). -/

namespace Sys2Proof

/-- DECODE fails where the decoder of terms does, and on the illegal rows with the opcode found (R57, R105). -/
theorem codecDecode_eq_error_iff {bytes : List Byte} {e : CodecError} :
    Codec.decode bytes = .error e ↔
      decode bytes = .error e ∨
        ∃ i, decode bytes = .ok i ∧ i.name = none ∧ e = .unknownOpcode (BitVec.ofNat 4 i.opcode) := by
  refine ⟨decode_of_codec_error, fun h => ?_⟩
  cases hcodec : Codec.decode bytes with
  | ok p =>
    obtain ⟨n, -, hok⟩ := decode_of_codec_ok hcodec
    cases n <;> simp [hok, instrNamed, Instr.name] at h
  | error e' =>
    obtain herr | ⟨i, hok, hname, rfl⟩ := decode_of_codec_error hcodec
    · simpa [herr] using h
    · simpa [hok, hname, eq_comm] using h

end Sys2Proof

namespace Sys2Proof.Machine

variable {s t u : State} {e : RunError}

/-- The slot at `ip` fails with the error `e`, taken in the state `u` (R161): DECODE fails; `write_value` finds no value to
pop; it has popped its value and finds no cell to store it; `read_value` or `sgn` finds no cell to load. -/
inductive SlotFails (s : State) : RunError → State → Prop
  | undecoded {c : CodecError} (hdecode : Codec.decode s.fetch = .error c) : SlotFails s (.codec c) s
  | noValue {b : Nat} (hdecode : decode s.fetch = .ok (.writeValue b)) (hstack : s.stack = []) :
      SlotFails s .stackUnderflow (s.recordStep .writeValue b)
  | noCellToStore {b : Nat} {v : Cell} {rest : List Cell} (hdecode : decode s.fetch = .ok (.writeValue b))
      (hstack : s.stack = v :: rest) (hb : s.memSize ≤ b) :
      SlotFails s (.addressRange b) { s.recordStep .writeValue b with stack := rest }
  | noCellToLoad {name : OpName} {b : Nat} (hname : name = .readValue ∨ name = .sgn)
      (hdecode : decode s.fetch = .ok (instrNamed name b)) (hb : s.memSize ≤ b) :
      SlotFails s (.addressRange b) (s.recordStep name b)

/-! ## A step halts exactly where its slot fails -/

/-- A load outside the memory takes the error after the step entry (R123, R125). -/
theorem exec_load_of_outside {name : OpName} (hname : name = .readValue ∨ name = .sgn) {b : Nat} (hb : s.memSize ≤ b) :
    exec (instrNamed name b) s = .next ((s.recordStep name b).raise (.addressRange b)) := by
  obtain rfl | rfl := hname
  · exact settle_memRead_of_outside (s := s.recordStep .readValue b) hb _
  · exact settle_memRead_of_outside (s := s.recordStep .sgn b) hb _

/-- Where the slot fails, the step takes the error (R162). -/
theorem step_of_slotFails (hrun : s.status = .running) (hip : s.ip < instructionCount s.image) (h : SlotFails s e u) :
    step s = .next (u.raise e) := by
  cases h with
  | undecoded hdecode => exact step_of_codec_error hrun hip hdecode
  | noValue hdecode hstack => rw [step_of_decode_ok hrun hip hdecode, exec_writeValue_of_nil hstack]
  | noCellToStore hdecode hstack hb =>
    rw [step_of_decode_ok hrun hip hdecode, exec_writeValue_of_cons hstack, if_neg hb.not_gt]
  | noCellToLoad hname hdecode hb => rw [step_of_decode_ok hrun hip hdecode, exec_load_of_outside hname hb]

/-- An instruction that halts a running state is one of the failures of its slot (R122 to R125, R153). -/
theorem slotFails_of_exec {i : Instr} (hrun : s.status = .running) (hdecode : decode s.fetch = .ok i)
    (h : exec i s = .next t) (ht : t.status = .haltedError) : ∃ e u, SlotFails s e u ∧ t = u.raise e := by
  cases i
  case loadConst b =>
    obtain rfl := execLoadConst_cases h
    simp [hrun] at ht
  case readValue b =>
    obtain ⟨-, rfl⟩ | ⟨hb, rfl⟩ := execReadValue_cases h
    · simp [hrun] at ht
    · exact ⟨_, _, .noCellToLoad (.inl rfl) hdecode hb, rfl⟩
  case writeValue b =>
    obtain ⟨hstack, rfl⟩ | ⟨v, rest, -, -, rfl⟩ | ⟨v, rest, hstack, hb, rfl⟩ := execWriteValue_cases h
    · exact ⟨_, _, .noValue hdecode hstack, rfl⟩
    · simp [hrun] at ht
    · exact ⟨_, _, .noCellToStore hdecode hstack hb, rfl⟩
  case sgn b =>
    obtain ⟨-, rfl⟩ | ⟨hb, rfl⟩ := execSgn_cases h
    · simp [hrun] at ht
    · exact ⟨_, _, .noCellToLoad (.inr rfl) hdecode hb, rfl⟩
  all_goals
    exact ⟨_, _, .undecoded (codecDecode_eq_error_iff.mpr (.inr ⟨_, hdecode, rfl, rfl⟩)), exec_of_name_none rfl h⟩

/-- A step that halts found a slot that fails (R120, R162). -/
theorem slotFails_of_step (h : step s = .next t) (ht : t.status = .haltedError) :
    s.ip < instructionCount s.image ∧ ∃ e u, SlotFails s e u ∧ t = u.raise e := by
  obtain ⟨hrun, ⟨-, rfl⟩ | ⟨hip, c, hdecode, rfl⟩ | ⟨hip, i, hdecode, hexec⟩⟩ := step_cases h
  · simp at ht
  · exact ⟨hip, _, _, .undecoded (codecDecode_eq_error_iff.mpr (.inl hdecode)), rfl⟩
  · exact ⟨hip, slotFails_of_exec hrun hdecode hexec ht⟩

/-- An error is taken where the slot was fetched, and the memory is as it was (R162). -/
theorem SlotFails.keeps_ip_mem (h : SlotFails s e u) : u.ip = s.ip ∧ u.mem = s.mem := by
  cases h <;> exact ⟨rfl, rfl⟩

/-- What a step that halts with a given error leaves is the state in which the slot fails with it, the error taken. -/
theorem slotFails_of_halts (h : step s = .next t) (ht : t.status = .haltedError ∧ t.error = some ⟨e, s.ip⟩) :
    s.ip < instructionCount s.image ∧ ∃ u, SlotFails s e u ∧ t = u.raise e := by
  obtain ⟨hip, e', u, hfails, rfl⟩ := slotFails_of_step h ht.1
  obtain ⟨rfl, -⟩ : e' = e ∧ u.ip = s.ip := by simpa using ht.2
  exact ⟨hip, u, hfails, rfl⟩

/-- A step halts with an error exactly where the slot at `ip` fails with it (R161, R162). -/
theorem halts_iff (h : step s = .next t) :
    (t.status = .haltedError ∧ t.error = some ⟨e, s.ip⟩) ↔ s.ip < instructionCount s.image ∧ ∃ u, SlotFails s e u := by
  constructor
  · intro ht
    obtain ⟨hip, u, hfails, -⟩ := slotFails_of_halts h ht
    exact ⟨hip, u, hfails⟩
  · rintro ⟨hip, u, hfails⟩
    obtain rfl := Host.Outcome.next.inj (h.symm.trans (step_of_slotFails (running_of_step h) hip hfails))
    simp [hfails.keeps_ip_mem]

/-! ## What a halting step leaves -/

/-- The trace gains at most the failing instruction's own step entry before the error is taken (R121). -/
theorem SlotFails.trace_eq (h : SlotFails s e u) : ∃ before, u.trace = s.trace ++ before := by
  cases h with
  | undecoded => exact ⟨[], (List.append_nil _).symm⟩
  | noValue | noCellToStore | noCellToLoad => exact ⟨_, rfl⟩

/-- The stack is as it was, but for the value that `write_value` has popped (R162). -/
theorem SlotFails.stack_cases (h : SlotFails s e u) :
    u.stack = s.stack ∨ ∃ b v, decode s.fetch = .ok (.writeValue b) ∧ s.stack = v :: u.stack := by
  cases h with
  | undecoded | noValue | noCellToLoad => exact .inl rfl
  | noCellToStore hdecode hstack => exact .inr ⟨_, _, hdecode, hstack⟩

/-- Settles O37: the step took the error of the slot that fails, and a halted state is not running. -/
theorem errorHaltsInPlace : Obligations.ErrorHaltsInPlace := by
  intro s t h ht
  obtain ⟨-, e, u, hfails, rfl⟩ := slotFails_of_step h ht
  obtain ⟨hip, hmem⟩ := hfails.keeps_ip_mem
  obtain ⟨before, htrace⟩ := hfails.trace_eq
  refine ⟨e, before, by simp [hip], by simp [hip, htrace], hip, hmem, hfails.stack_cases, fun w hw => ?_⟩
  simpa using running_of_step hw

/-! ## When each error arises -/

/-- `peek` fails exactly on the empty stack (R17). -/
theorem State.peek_eq_error : s.peek = .error e ↔ s.stack = [] ∧ e = .stackUnderflow := by
  unfold State.peek
  cases s.stack <;> simp [eq_comm]

/-- A slot underflows the stack exactly when it holds `write_value` and the depth is 0 (R154). -/
theorem slotFails_stackUnderflow_iff :
    (∃ u, SlotFails s .stackUnderflow u) ↔ (∃ b, decode s.fetch = .ok (.writeValue b)) ∧ s.stackDepth = 0 := by
  constructor
  · rintro ⟨u, hfails⟩
    cases hfails with
    | noValue hdecode hstack => exact ⟨⟨_, hdecode⟩, by rw [State.stackDepth, hstack, List.length_nil]⟩
  · rintro ⟨⟨b, hdecode⟩, hdepth⟩
    exact ⟨_, .noValue hdecode (List.length_eq_zero_iff.mp hdepth)⟩

/-- Settles O39: the one failure with StackUnderflowError is that of a pop from the empty stack. -/
theorem stackUnderflowExactly : Obligations.StackUnderflowExactly := by
  refine ⟨fun s => ⟨by simp [State.pop_eq_error], by simp [State.peek_eq_error]⟩, fun s t h => ⟨?_, fun ht => ?_⟩⟩
  · rw [halts_iff h, slotFails_stackUnderflow_iff]
  · obtain ⟨-, u, hfails, rfl⟩ := slotFails_of_halts h ht
    cases hfails with
    | noValue => exact ⟨rfl, rfl⟩

/-- `read` fails exactly outside the memory (R39). -/
theorem State.memRead_eq_addressRange_iff {addr : Int} :
    s.memRead addr = .error (.addressRange addr) ↔ ¬(0 ≤ addr ∧ addr < s.memSize) := by
  refine ⟨fun h hin => ?_, State.memRead_of_outside⟩
  rw [State.memRead_of_inside hin] at h
  cases h

/-- `write` fails exactly outside the memory (R39). -/
theorem State.memWrite_eq_addressRange_iff {addr : Int} {v : Cell} :
    s.memWrite addr v = .error (.addressRange addr) ↔ ¬(0 ≤ addr ∧ addr < s.memSize) := by
  refine ⟨fun h hin => ?_, State.memWrite_of_outside⟩
  rw [State.memWrite_of_inside hin] at h
  cases h

/-- A slot presents an address outside the memory exactly through `read_value`, `sgn`, or `write_value` once it has
popped (R155). -/
theorem slotFails_addressRange_iff {addr : Int} :
    (∃ u, SlotFails s (.addressRange addr) u) ↔
      ∃ b : Nat, addr = b ∧ s.memSize ≤ b ∧
        ((decode s.fetch = .ok (.readValue b) ∨ decode s.fetch = .ok (.sgn b)) ∨
          (decode s.fetch = .ok (.writeValue b) ∧ s.stack ≠ [])) := by
  constructor
  · rintro ⟨u, hfails⟩
    cases hfails with
    | noCellToStore hdecode hstack hb => exact ⟨_, rfl, hb, .inr ⟨hdecode, by simp [hstack]⟩⟩
    | noCellToLoad hname hdecode hb =>
      obtain rfl | rfl := hname
      · exact ⟨_, rfl, hb, .inl (.inl hdecode)⟩
      · exact ⟨_, rfl, hb, .inl (.inr hdecode)⟩
  · rintro ⟨b, rfl, hb, (hdecode | hdecode) | ⟨hdecode, hstack⟩⟩
    · exact ⟨_, .noCellToLoad (.inl rfl) hdecode hb⟩
    · exact ⟨_, .noCellToLoad (.inr rfl) hdecode hb⟩
    · obtain ⟨v, rest, hstack⟩ := List.exists_cons_of_ne_nil hstack
      exact ⟨_, .noCellToStore hdecode hstack hb⟩

/-- A slot with `write_value` that fails on its address has popped its value (R124, R155). -/
theorem SlotFails.stack_of_writeValue {addr : Int} {b : Nat} (h : SlotFails s (.addressRange addr) u)
    (hwrite : decode s.fetch = .ok (.writeValue b)) : ∃ v, s.stack = v :: u.stack := by
  cases h with
  | noCellToStore hdecode hstack => exact ⟨_, hstack⟩
  | noCellToLoad hname hdecode => obtain rfl | rfl := hname <;> simp [hwrite, instrNamed] at hdecode

/-- Settles O40: the primitives by their range test, the steps by the failures of a slot with AddressRangeError. -/
theorem addressRangeExactly : Obligations.AddressRangeExactly := by
  refine ⟨fun s addr v => ⟨State.memRead_eq_addressRange_iff, State.memWrite_eq_addressRange_iff⟩,
    fun s t addr h => ⟨?_, fun ht => ?_⟩⟩
  · rw [halts_iff h, slotFails_addressRange_iff]
  · obtain ⟨-, u, hfails, rfl⟩ := slotFails_of_halts h ht
    exact ⟨hfails.keeps_ip_mem.2, fun b => hfails.stack_of_writeValue⟩

/-- DECODE raises FormatError exactly for a length other than 3, with that length (R152). -/
theorem codecDecode_eq_format_iff {bytes : List Byte} {n : Nat} :
    Codec.decode bytes = .error (.format n) ↔ bytes.length ≠ 3 ∧ n = bytes.length := by
  simp [codecDecode_eq_error_iff, decode_eq_error]

/-- A slot of a length other than 3 is the leftover one: the last, with the remainder of the image (R47). -/
theorem leftover_of_length_slot_ne {image : List Byte} {k : Nat} (hk : k < instructionCount image)
    (h : (slot image k).length ≠ 3) :
    k + 1 = instructionCount image ∧ image.length % 3 ≠ 0 ∧ (slot image k).length = image.length % 3 := by
  simp only [instructionCount] at hk ⊢
  simp only [slot, imgRead, List.length_take, List.length_drop] at h ⊢
  omega

/-- Settles O41: FormatError is DECODE's, so the slot has a length other than 3. -/
theorem formatErrorExactly : Obligations.FormatErrorExactly := by
  refine ⟨fun bytes n => codecDecode_eq_format_iff, fun s t n k h ht he => ?_⟩
  obtain ⟨hip, e, u, hfails, rfl⟩ := slotFails_of_step h ht
  obtain ⟨rfl, -⟩ : e = .codec (.format n) ∧ u.ip = k := by simpa using he
  cases hfails with
  | undecoded hdecode =>
    obtain ⟨hlen, rfl⟩ := codecDecode_eq_format_iff.mp hdecode
    exact leftover_of_length_slot_ne hip hlen

end Sys2Proof.Machine
end

section
/-! Reset, and when a run is over (spec/70_reset_and_hazards.md R181, R188). -/

namespace Sys2Proof.Machine

variable {s t : State}

/-- Settles O48: reset presets no cell, and every other component is written out by it. -/
theorem resetState : Obligations.ResetState :=
  ⟨rfl, rfl, rfl, fun _ => rfl, rfl, rfl, rfl⟩

/-- A run that is not over is running: COMPLETED and HALTED_ERROR are the only other statuses (R19). -/
theorem Status.eq_running_iff {st : Status} : st = .running ↔ ¬(st = .completed ∨ st = .haltedError) := by
  cases st <;> simp

/-- The states with a next state are the running ones (R130). -/
theorem exists_step_iff_running : (∃ t, step s = .next t) ↔ s.status = .running :=
  ⟨fun ⟨_, h⟩ => running_of_step h, exists_step_of_running⟩

/-- A step ends in COMPLETED only where it finds `ip` at the end of the program: an instruction that completes goes on
running, and an error halts (R120, R188). -/
theorem step_completed_iff (h : step s = .next t) : t.status = .completed ↔ instructionCount s.image ≤ s.ip := by
  have hrun : s.status = .running := running_of_step h
  cases stepOutcome_of_step h with
  | ended hend => simp [hend]
  | undecoded hip c => simp [hip]
  | executed hip hdecode hname hout =>
    cases hout with
    | completed hstack => simp [hrun, hip]
    | failed hstack he => simp [hip]

/-- Settles O31: a step exists exactly in a running state, and what it leaves at the end of the program is `complete`. -/
theorem completedExactlyAtProgramEnd : Obligations.CompletedExactlyAtProgramEnd :=
  ⟨fun _ => exists_step_iff_running.trans Status.eq_running_iff, fun _ => step_of_atEnd, fun _ _ => step_completed_iff⟩

end Sys2Proof.Machine
end


section
/-! Instruction terms and their three bytes: the word of a term has the term's opcode and operand as its fields
(spec/30_encoding.md R51 to R56, spec/40_codec_operations.md R94). -/

namespace Sys2Proof

/-! ## The round trips -/

/-- The bytes of a term hold its word, whose fields are its opcode and its operand (R51, R53). -/
theorem encode_eq_word (i : Instr) : ∃ b0 b1 b2, encode i = [b0, b1, b2] ∧
    littleEndian b0 b1 b2 = (i.opcode + 16 * i.operand) % 16777216 := by
  refine ⟨_, _, _, rfl, ?_⟩
  rw [littleEndian_byteOf, wordOf_eq i.opcode_lt]

/-- Settles O16: the word of a well-formed term is below `2^24`, so its fields are the term's, and the opcode map gives the
term back. -/
theorem decodeOfEncodedInstruction : Obligations.DecodeOfEncodedInstruction := by
  intro i hi
  have hopcode : i.opcode < 16 := i.opcode_lt
  have hoperand : i.operand < 1048576 := hi
  obtain ⟨b0, b1, b2, hbytes, hv⟩ := encode_eq_word i
  rw [Nat.mod_eq_of_lt (by omega)] at hv
  have hA : fieldA (littleEndian b0 b1 b2) = i.opcode := by rw [fieldA_eq]; omega
  have hHB : fieldHB (littleEndian b0 b1 b2) = i.operand := by rw [fieldHB_eq]; omega
  simp only [hbytes, decode, hA, hHB, instrOf_opcode]

/-- Settles O17: the decoder's term has the fields of the word read, and a word is made from its fields. -/
theorem encodeOfDecodedInstruction : Obligations.EncodeOfDecodedInstruction := by
  intro bytes i h
  refine ⟨decode_wellFormed h, ?_⟩
  obtain ⟨b0, b1, b2, rfl, rfl⟩ := decode_eq_ok h
  have hA : fieldA (littleEndian b0 b1 b2) < 16 := by rw [fieldA_eq]; omega
  have hword : wordOf (fieldA (littleEndian b0 b1 b2)) (fieldHB (littleEndian b0 b1 b2)) = littleEndian b0 b1 b2 := by
    rw [wordOf_eq hA, fieldA_eq, fieldHB_eq, Nat.mod_add_div]
  obtain ⟨h0, h1, h2⟩ := byteOf_littleEndian b0 b1 b2
  simp only [encode, instrOf_fields, BitVec.toNat_ofNat, Nat.reducePow, Nat.mod_eq_of_lt hA, hword, h0, h1, h2]

/-! ## The decoder of terms and DECODE -/

@[simp] theorem instrNamed_name (n : OpName) (b : Nat) : (instrNamed n b).name = some n := by
  cases n <;> rfl

@[simp] theorem instrNamed_operand (n : OpName) (b : Nat) : (instrNamed n b).operand = b := by
  cases n <;> rfl

/-- A term with a name determines its name and its operand (R56). -/
theorem instrNamed_inj {n m : OpName} {b c : Nat} : instrNamed n b = instrNamed m c ↔ n = m ∧ b = c := by
  refine ⟨fun h => ?_, fun ⟨hn, hb⟩ => hn ▸ hb ▸ rfl⟩
  have hname := congrArg Instr.name h
  have hoperand := congrArg Instr.operand h
  rw [instrNamed_name, instrNamed_name, Option.some.injEq] at hname
  rw [instrNamed_operand, instrNamed_operand] at hoperand
  exact ⟨hname, hoperand⟩

/-- Where the decoder of terms gives a named instruction, DECODE gives the opcode and the operand (R105). -/
theorem codecDecode_of_decode {bytes : List Byte} {n : OpName} {b : Nat} (h : decode bytes = .ok (instrNamed n b)) :
    ∃ x : Operand, Codec.decode bytes = .ok (opcodeOf n, x) ∧ x.toNat = b := by
  rcases hcodec : Codec.decode bytes with e | ⟨a, x⟩
  · obtain herr | ⟨i, hok, hname, -⟩ := decode_of_codec_error hcodec
    · simp [h] at herr
    · obtain rfl : instrNamed n b = i := by simpa [h] using hok
      simp at hname
  · obtain ⟨m, hm, hok⟩ := decode_of_codec_ok hcodec
    obtain ⟨rfl, rfl⟩ := instrNamed_inj.mp (Except.ok.inj (h.symm.trans hok))
    exact ⟨x, by rw [opcodeOf_of_nameOf hm], rfl⟩

theorem eq_ofNat_opcode_iff {a : Opcode} {i : Instr} : a = BitVec.ofNat 4 i.opcode ↔ i.opcode = a.toNat := by
  rw [← BitVec.toNat_inj, BitVec.toNat_ofNat, Nat.mod_eq_of_lt i.opcode_lt, eq_comm]

/-- Settles O15: a pair of DECODE is a named term, an error of DECODE is the decoder's or an illegal row. -/
theorem termDecodingIsDecode : Obligations.TermDecodingIsDecode := by
  refine fun bytes => ⟨fun a b => ⟨fun h => ?_, ?_⟩, fun n => ?_, fun a => ?_⟩
  · obtain ⟨n, hn, hok⟩ := decode_of_codec_ok h
    exact ⟨_, n, hok, instrNamed_name n _, (opcodeOf_of_nameOf hn).symm, rfl⟩
  · rintro ⟨i, n, hok, -, rfl, rfl⟩
    obtain ⟨x, hx, hb⟩ := codecDecode_of_decode hok
    rw [hx, BitVec.eq_of_toNat_eq hb]
  · simp [codecDecode_eq_error_iff]
  · simp [codecDecode_eq_error_iff, decode_eq_error, eq_ofNat_opcode_iff]

/-- Settles O14: each word is computed. -/
theorem specWordsDecode : Obligations.SpecWordsDecode := by
  refine ⟨?_, ?_, ?_, ?_, ?_, ?_, ?_⟩ <;> decide

end Sys2Proof
end

section
/-! What an instruction does to the data memory, said once; and that every step keeps the invariant of a run
(spec/10_state.md section 3, spec/41_coded_instructions.md R130 to R134). -/

namespace Sys2Proof.Machine

variable {s t : State}

/-! ## The memory -/

/-- An instruction leaves the memory as it is, unless it is a `write_value` that completes (R122 to R125). -/
theorem exec_mem_cases {i : Instr} (h : exec i s = .next t) :
    t.mem = s.mem ∨
      ∃ b v rest, i = .writeValue b ∧ s.stack = v :: rest ∧ b < s.memSize ∧ t.mem = Memory.write s.mem b v := by
  cases i
  case loadConst b => exact .inl (execLoadConst_cases h ▸ rfl)
  case readValue b => obtain ⟨-, rfl⟩ | ⟨-, rfl⟩ := execReadValue_cases h <;> exact .inl rfl
  case writeValue b =>
    obtain ⟨-, rfl⟩ | ⟨v, rest, hstack, hb, rfl⟩ | ⟨v, rest, -, -, rfl⟩ := execWriteValue_cases h
    · exact .inl rfl
    · exact .inr ⟨b, v, rest, rfl, hstack, hb, rfl⟩
    · exact .inl rfl
  case sgn b => obtain ⟨-, rfl⟩ | ⟨-, rfl⟩ := execSgn_cases h <;> exact .inl rfl
  all_goals exact .inl (exec_of_name_none rfl h ▸ rfl)

/-- A step leaves the memory as it is, or writes the top of the stack to a cell inside it. -/
theorem step_mem_cases (h : step s = .next t) :
    t.mem = s.mem ∨ ∃ b v, v ∈ s.stack ∧ b < s.memSize ∧ t.mem = Memory.write s.mem b v := by
  obtain ⟨-, ⟨-, rfl⟩ | ⟨-, e, -, rfl⟩ | ⟨-, i, -, hexec⟩⟩ := step_cases h
  · exact .inl rfl
  · exact .inl rfl
  · obtain hmem | ⟨b, v, rest, -, hstack, hb, hmem⟩ := exec_mem_cases hexec
    · exact .inl hmem
    · exact .inr ⟨b, v, by simp [hstack], hb, hmem⟩

/-- Every step keeps the memory canonical and within its size (R18). -/
theorem step_keeps_memoryOk (h : step s = .next t) (hs : s.MemoryOk) : t.MemoryOk := by
  obtain ⟨hwf, hfits⟩ := hs
  rw [State.MemoryOk, (step_keeps_image_memSize h).2]
  obtain hmem | ⟨b, v, -, hb, hmem⟩ := step_mem_cases h
  · exact hmem ▸ ⟨hwf, hfits⟩
  · exact hmem ▸ ⟨Memory.wf_write hwf b v, Memory.fits_write hfits hb v⟩

/-! ## The trace -/

/-- The step entry of slot `k` goes after those of the slots below it (R134). -/
theorem stepEntriesTo_concat {k : Nat} {entries : List TraceEntry} (h : stepEntriesTo k entries) (name : OpName)
    (operand : Nat) (stack : List Cell) : stepEntriesTo (k + 1) (entries ++ [.step k name operand stack]) := by
  rw [stepEntriesTo] at h
  simp [stepEntriesTo, h, List.range_succ, TraceEntry.stepIp]

/-- Every step keeps the form of the trace: a completed instruction adds its step entry, a halt the error entry (R121). -/
theorem step_keeps_traceOk (h : step s = .next t) (hs : s.TraceOk) : t.TraceOk := by
  have hrun : s.status = .running := running_of_step h
  have hentries : stepEntriesTo s.ip s.trace := hs.1 (by simp [hrun])
  cases stepOutcome_of_step h with
  | ended hend => exact ⟨fun _ => hentries, by simp⟩
  | undecoded hip c => exact ⟨by simp, fun _ => ⟨s.trace, .codec c, rfl, rfl, hentries⟩⟩
  | executed hip hdecode hname hout =>
    have hrecorded := stepEntriesTo_concat hentries
    cases hout with
    | completed hstack => exact ⟨fun _ => hrecorded _ _ _, by simp [hrun]⟩
    | @failed stack e hstack he =>
      refine ⟨by simp, fun _ => ⟨_, e, rfl, rfl, ?_⟩⟩
      cases e with
      | codec c => exact absurd rfl (he c)
      | stackUnderflow | addressRange => exact hrecorded _ _ _

/-! ## The invariant -/

/-- Settles O33: every part of the invariant is kept by its own lemma. -/
theorem stepKeepsInv : Obligations.StepKeepsInv := fun _ _ hs h =>
  { memory := step_keeps_memoryOk h hs.memory
    ip := step_keeps_ipOk h hs.ip
    error := step_keeps_errorOk h hs.error
    depth := step_keeps_depthOk h hs.depth
    trace := step_keeps_traceOk h hs.trace }

/-- A run starts with the invariant where its initial memory is canonical and within its size (R25, R183). -/
theorem start_inv (image : List Byte) {size : Nat} {mem0 : Memory} (hwf : Memory.wf mem0 = true)
    (hfits : Memory.fits size mem0 = true) : (State.start image size mem0).Inv where
  memory := ⟨hwf, hfits⟩
  ip := ⟨Nat.zero_le _, by simp, by simp⟩
  error := ⟨by simp, fun _ => rfl⟩
  depth := Nat.le_refl 0
  trace := ⟨fun _ => rfl, by simp⟩

/-- Settles O34: reset is the start of a run with nothing preset. -/
theorem invHoldsAtStart : Obligations.InvHoldsAtStart :=
  ⟨start_inv [] rfl rfl, fun image _ _ => start_inv image⟩

/-! ## The values -/

theorem reachableValue_zero : reachableValue 0 := by
  simp [reachableValue]

/-- The sign of any integer is such a value (R125, R126). -/
theorem reachableValue_signOf (v : Cell) : reachableValue (signOf v) := by
  unfold signOf
  split_ifs <;> simp [reachableValue]

/-- The operand of a word is such a value (R55, R133). -/
theorem reachableValue_immediate {b : Nat} (hb : b < 1048576) : reachableValue (immediate b) := by
  show (-1 : Int) ≤ b ∧ (b : Int) ≤ 1048575
  omega

theorem State.ValuesOk.read (hs : s.ValuesOk) (a : Nat) : reachableValue (Memory.read s.mem a) := by
  obtain h | h := Memory.read_mem s.mem a
  · exact h ▸ reachableValue_zero
  · exact hs.2 _ h

/-- An instruction with a 20-bit operand leaves such values on the stack: it pushes an operand, a cell or a sign. -/
theorem exec_keeps_stack_values {i : Instr} (hi : i.WellFormed) (h : exec i s = .next t) (hs : s.ValuesOk) :
    ∀ v ∈ t.stack, reachableValue v := by
  cases i
  case loadConst b =>
    obtain rfl := execLoadConst_cases h
    exact List.forall_mem_cons.mpr ⟨reachableValue_immediate hi, hs.1⟩
  case readValue b =>
    obtain ⟨-, rfl⟩ | ⟨-, rfl⟩ := execReadValue_cases h
    · exact List.forall_mem_cons.mpr ⟨hs.read b, hs.1⟩
    · exact hs.1
  case writeValue b =>
    obtain ⟨-, rfl⟩ | ⟨v, rest, hstack, -, rfl⟩ | ⟨v, rest, hstack, -, rfl⟩ := execWriteValue_cases h
    · exact hs.1
    all_goals exact (List.forall_mem_cons.mp (hstack ▸ hs.1)).2
  case sgn b =>
    obtain ⟨-, rfl⟩ | ⟨-, rfl⟩ := execSgn_cases h
    · exact List.forall_mem_cons.mpr ⟨reachableValue_signOf _, hs.1⟩
    · exact hs.1
  all_goals exact exec_of_name_none rfl h ▸ hs.1

/-- Every step keeps the values on the stack and in memory within the bound (R133). -/
theorem step_keeps_valuesOk (h : step s = .next t) (hs : s.ValuesOk) : t.ValuesOk := by
  constructor
  · obtain ⟨-, ⟨-, rfl⟩ | ⟨-, e, -, rfl⟩ | ⟨-, i, hdecode, hexec⟩⟩ := step_cases h
    · exact hs.1
    · exact hs.1
    · exact exec_keeps_stack_values (decode_wellFormed hdecode) hexec hs
  · obtain hmem | ⟨b, v, hv, -, hmem⟩ := step_mem_cases h
    · exact hmem ▸ hs.2
    · intro c hc
      obtain rfl | hc := Memory.mem_write (hmem ▸ hc)
      · exact hs.1 v hv
      · exact hs.2 c hc

/-- Settles O47: a run from all-zero memory starts without any value, and every step keeps the bound. -/
theorem reachableValues : Obligations.ReachableValues :=
  ⟨fun _ _ hs h => step_keeps_valuesOk h hs, fun _ _ k => runFor_keeps step_keeps_valuesOk k ⟨by simp, by simp⟩⟩

end Sys2Proof.Machine
end

section
/-! The frame of each form, and what a single step can answer (spec/41_coded_instructions.md section 2,
spec/60_exceptions.md section 6). -/

namespace Sys2Proof.Machine

variable {s t : State}

/-- Settles O18: both primitives on top of a push, and on the empty stack. -/
theorem stackPrimitives : Obligations.StackPrimitives := by
  refine fun s v => ⟨rfl, rfl, rfl, rfl, fun h => ⟨State.pop_eq_error.mpr ⟨h, rfl⟩, State.peek_eq_error.mpr ⟨h, rfl⟩, ?_⟩⟩
  rw [State.stackDepth, h, List.length_nil]

/-- Settles O24: each of the twelve rows halts by the law of the words without a name. -/
theorem unrecognisedWordsHaltTheRun : Obligations.UnrecognisedWordsHaltTheRun := by
  intro x s p hp
  have hrow : p.1.name = none ∧ BitVec.ofNat 4 p.1.opcode = p.2 := by
    simp only [List.mem_cons, List.not_mem_nil, or_false] at hp
    rcases hp with rfl | rfl | rfl | rfl | rfl | rfl | rfl | rfl | rfl | rfl | rfl | rfl <;> exact ⟨rfl, rfl⟩
  rw [exec_eq_raise_of_name_none hrow.1, hrow.2]
  rfl

/-- Settles O29: the step is the dispatch alone. -/
theorem stepRunsDecodedInstruction : Obligations.StepRunsDecodedInstruction :=
  fun _ _ hrun hip h => step_of_decode_ok hrun hip h

/-- Everything a form that stores nothing can do: push one value, or halt with its stack untouched, after its step entry or
as an illegal word (R122, R123, R125, R153). -/
theorem exec_cases_of_ne_writeValue {i : Instr} (hi : ∀ b, i ≠ .writeValue b) (h : exec i s = .next t) :
    (∃ name v, i.name = some name ∧ t = ((s.recordStep name i.operand).push v).advance) ∨
    (∃ name e, t = (s.recordStep name i.operand).raise e) ∨ ∃ e, t = s.raise e := by
  cases i
  case loadConst b => exact .inl ⟨_, _, rfl, execLoadConst_cases h⟩
  case readValue b =>
    obtain ⟨-, ht⟩ | ⟨-, ht⟩ := execReadValue_cases h
    · exact .inl ⟨_, _, rfl, ht⟩
    · exact .inr (.inl ⟨_, _, ht⟩)
  case writeValue b => exact absurd rfl (hi b)
  case sgn b =>
    obtain ⟨-, ht⟩ | ⟨-, ht⟩ := execSgn_cases h
    · exact .inl ⟨_, _, rfl, ht⟩
    · exact .inr (.inl ⟨_, _, ht⟩)
  all_goals exact .inr (.inr ⟨_, exec_of_name_none rfl h⟩)

/-- Settles O26: each of the three outcomes, field by field. -/
theorem frameOfFormsThatStoreNothing : Obligations.FrameOfFormsThatStoreNothing := by
  intro i s t hi h
  obtain ⟨name, v, hname, rfl⟩ | ⟨name, e, rfl⟩ | ⟨e, rfl⟩ := exec_cases_of_ne_writeValue hi h
  · simp [hname]
  · simp
  · simp

/-- Settles O27: an underflow changes only the record of the run, the two others pop, and one of them stores. -/
theorem frameOfWriteValue : Obligations.FrameOfWriteValue := by
  intro b s t hwf h
  obtain ⟨-, rfl⟩ | ⟨v, rest, hstack, -, rfl⟩ | ⟨v, rest, hstack, -, rfl⟩ := execWriteValue_cases h
  · simp
  · refine ⟨rfl, rfl, fun a c hb hc => ?_, ⟨_, rfl⟩, .inl ⟨rfl, rfl, v, hstack⟩⟩
    obtain rfl : b = a := Int.ofNat.inj hb
    exact Memory.read_write_other hwf hc v
  · exact ⟨rfl, rfl, fun _ _ _ _ => rfl, ⟨_, List.append_assoc ..⟩, .inr ⟨rfl, fun _ => rfl, .inr ⟨v, hstack⟩⟩⟩

/-- Settles O28: in range neither instruction fails; the load then reads the memory the store has left. -/
theorem loadSeesLatestStore : Obligations.LoadSeesLatestStore := by
  intro b c s t u v rest hwf hstack hb hc hwrite hread
  rw [exec_writeValue_of_cons hstack, if_pos hb, Host.Outcome.next.injEq] at hwrite
  subst hwrite
  obtain ⟨-, rfl⟩ | ⟨hout, -⟩ := execReadValue_cases hread
  · refine ⟨congrArg (· :: rest) ?_, rfl⟩
    by_cases hcb : c = b
    · rw [if_pos hcb, hcb]
      exact Memory.read_write_same hwf b v
    · rw [if_neg hcb]
      exact Memory.read_write_other hwf hcb v
  · exact absurd hc (Nat.not_lt.mpr hout)

/-- A step is a fault exactly in a state whose run is over (R130). -/
theorem step_eq_fault_iff {f : Fault} : step s = .fault f ↔ f = .runOver ∧ s.status ≠ .running := by
  cases f
  by_cases hrun : s.status = .running
  · obtain ⟨t, ht⟩ := exists_step_of_running hrun
    simp [ht, hrun]
  · have hover : step s = .fault .runOver := by
      rw [step]
      split
      · rfl
      · rfl
      · exact absurd ‹_› hrun
    simp [hover, hrun]

/-- No step is refused: it is a next state or a fault. -/
theorem step_ne_refused (s : State) (r : Refusal) : step s ≠ .refused r := by
  by_cases hrun : s.status = .running
  · obtain ⟨t, ht⟩ := exists_step_of_running hrun
    simp [ht]
  · simp [step_eq_fault_iff.mpr ⟨rfl, hrun⟩]

/-- Settles O32: a running state has a next state, any other the one fault. -/
theorem stepStopsOnlyWhenRunIsOver : Obligations.StepStopsOnlyWhenRunIsOver :=
  ⟨fun _ _ => step_eq_fault_iff, step_ne_refused, exists_exec_eq_next⟩

/-- Settles O38: the failures of a slot are the four cases. -/
theorem errorPriorityAndPrecision : Obligations.ErrorPriorityAndPrecision := by
  intro s t e k h ht he
  obtain ⟨-, e', u, hfails, rfl⟩ := slotFails_of_step h ht
  obtain ⟨hip, hmem⟩ := hfails.keeps_ip_mem
  obtain ⟨rfl, rfl⟩ : e' = e ∧ u.ip = k := by simpa using he
  refine ⟨hip, hmem, ?_⟩
  cases hfails with
  | undecoded hdecode => exact .inl ⟨_, hdecode, rfl, rfl⟩
  | noValue hdecode hstack => exact .inr (.inl ⟨_, hdecode, hstack, rfl, hstack⟩)
  | noCellToStore hdecode hstack hb => exact .inr (.inr (.inl ⟨_, _, hdecode, hstack, hb, rfl⟩))
  | noCellToLoad hname hdecode hb =>
    refine .inr (.inr (.inr ⟨_, ?_, hb, rfl, rfl⟩))
    obtain rfl | rfl := hname
    · exact .inl hdecode
    · exact .inr hdecode

end Sys2Proof.Machine
end

section
/-! The units ENC and DEC against ENCODE and DECODE: a concatenation of bit fields is the sum of the fields at their places
(spec/10_state.md R12, R13, spec/40_codec_operations.md R103). -/

namespace Sys2Proof

/-! ## The decoded operand -/

/-- Settles O5: the operand is the twenty bits above field A, which split into H and B. -/
theorem decodedOperandIsUnmasked : Obligations.DecodedOperandIsUnmasked := by
  refine ⟨fun b0 b1 b2 opcode operand h => ?_, fun b0 b1 b2 => ?_⟩
  · obtain ⟨-, hw⟩ := (Codec.decode_eq_ok (w := (b0, b1, b2))).mp h
    have hoperand : operand.toNat = littleEndian b0 b1 b2 / 16 := (eq_wordOfPair_iff.mp hw).2
    have hlt : littleEndian b0 b1 b2 < 16777216 := littleEndian_lt b0 b1 b2
    omega
  · rw [littleEndian_mod_16]
    exact Codec.exists_decode_eq_ok_iff (w := (b0, b1, b2))

end Sys2Proof

namespace Sys2Proof.Machine

/-! ## Bit fields as arithmetic -/

/-- A concatenation is the sum of its parts, the first above the second. -/
theorem toNat_append_eq_add {m n : Nat} (x : BitVec m) (y : BitVec n) :
    (x ++ y).toNat = 2 ^ n * x.toNat + y.toNat := by
  rw [BitVec.toNat_append, ← Nat.shiftLeft_add_eq_or_of_lt y.isLt, Nat.shiftLeft_eq, Nat.mul_comm]

/-- The bits of a field are a quotient and a remainder. -/
theorem toNat_extractLsb'_eq {w : Nat} (x : BitVec w) (start len : Nat) :
    (x.extractLsb' start len).toNat = x.toNat / 2 ^ start % 2 ^ len := by
  rw [BitVec.extractLsb'_toNat, Nat.shiftRight_eq_div_pow]

/-- The 24-bit bus carries the little-endian value of the bytes (R12, R53). -/
theorem toNat_bus (b0 b1 b2 : Byte) : (bus (b0, b1, b2)).toNat = littleEndian b0 b1 b2 := by
  simp only [bus, toNat_append_eq_add, littleEndian]
  omega

/-! ## ENC -/

/-- A request port that is not negative holds its integer as it stands. -/
theorem toNat_of_toInt_nonneg {w : Nat} {x : BitVec w} (h : 0 ≤ x.toInt) : x.toNat = x.toInt.toNat := by
  rw [BitVec.toInt_eq_toNat_of_lt (BitVec.toInt_pos_iff.mp h), Int.toNat_natCast]

/-- The wires of ENC carry the bytes of the word of its two ports (R52, R103). -/
theorem encWires_eq_wordBytes {w : Nat} {opcode operand : BitVec w} (hA : opcode.toNat < 16)
    (hB : operand.toNat < 32768) :
    ((operand.extractLsb' 0 4 ++ opcode.extractLsb' 0 4, operand.extractLsb' 4 8,
      0#5 ++ operand.extractLsb' 12 3) : WordBytes) = wordBytes (opcode.toNat + 16 * operand.toNat) := by
  refine Prod.ext (BitVec.eq_of_toNat_eq ?_) (Prod.ext (BitVec.eq_of_toNat_eq ?_) (BitVec.eq_of_toNat_eq ?_)) <;>
  · simp only [wordBytes, toNat_append_eq_add, toNat_extractLsb'_eq, byteOf_toNat, BitVec.toNat_ofNat]
    omega

/-- Where both ports are in range, ENC carries their wires to its outputs (R12). -/
theorem encUnit_of_in_range {w : Nat} {opcode operand : BitVec w} (hA : 0 ≤ opcode.toInt ∧ opcode.toInt ≤ 15)
    (hB : 0 ≤ operand.toInt ∧ operand.toInt ≤ 32767) :
    encUnit opcode operand = ⟨true, 0, false, false, some
      (operand.extractLsb' 0 4 ++ opcode.extractLsb' 0 4, operand.extractLsb' 4 8,
        0#5 ++ operand.extractLsb' 12 3)⟩ := by
  simp [encUnit, hA, hB]

/-- Where a port is out of range, ENC raises the flag of each such port (R91, R103). -/
theorem encUnit_of_out_of_range {w : Nat} {opcode operand : BitVec w}
    (h : ¬(0 ≤ opcode.toInt ∧ opcode.toInt ≤ 15) ∨ ¬(0 ≤ operand.toInt ∧ operand.toInt ≤ 32767)) :
    encUnit opcode operand = ⟨false, 1, decide (opcode.toInt < 0 ∨ 15 < opcode.toInt),
      decide (operand.toInt < 0 ∨ 32767 < operand.toInt), none⟩ := by
  have hbad : (decide (opcode.toInt < 0 ∨ 15 < opcode.toInt) || decide (operand.toInt < 0 ∨ 32767 < operand.toInt)) =
      true := by
    simp only [Bool.or_eq_true, decide_eq_true_eq]
    omega
  simp only [Bool.decide_or] at hbad ⊢
  exact if_pos hbad

/-- Settles O12: the range tests are ENCODE's, and in range the wires carry the word's bytes. -/
theorem encUnitComputesEncode : Obligations.EncUnitComputesEncode := by
  refine fun w opcode operand => ⟨fun bytes h => ?_, fun e h => ?_⟩
  · obtain ⟨hA, hB, rfl⟩ := Codec.encode_eq_ok.mp h
    have hopcode : opcode.toNat < 16 := by rw [toNat_of_toInt_nonneg hA.1]; omega
    have hoperand : operand.toNat < 32768 := by rw [toNat_of_toInt_nonneg hB.1]; omega
    rw [← toNat_of_toInt_nonneg hA.1, ← toNat_of_toInt_nonneg hB.1]
    refine ⟨by rw [encUnit_of_in_range hA hB, encWires_eq_wordBytes hopcode hoperand], ?_⟩
    rw [wordBytes, toNat_bus, littleEndian_byteOf, wordOf_eq hopcode]
    omega
  · by_cases hin : (0 ≤ opcode.toInt ∧ opcode.toInt ≤ 15) ∧ (0 ≤ operand.toInt ∧ operand.toInt ≤ 32767)
    · rw [Codec.encode_eq_ok.mpr ⟨hin.1, hin.2, rfl⟩] at h
      cases h
    · have hout := not_and_or.mp hin
      rw [Codec.encode_of_out_of_range hout] at h
      cases h
      exact encUnit_of_out_of_range hout

/-! ## DEC -/

/-- The wires of DEC carry what DECODE reads as the operand (R55, R103). -/
theorem decWires_eq_operand (b0 b1 b2 : Byte) :
    (b2 ++ b1 ++ b0.extractLsb' 4 4 : Operand).toNat = littleEndian b0 b1 b2 / 16 := by
  have h0 : b0.toNat < 256 := b0.isLt
  simp only [toNat_append_eq_add, toNat_extractLsb'_eq, littleEndian]
  omega

/-- The low wires of byte 0 carry field A (R52, R103). -/
theorem decWires_eq_opcode (b0 : Byte) : b0.extractLsb' 0 4 = BitVec.ofNat 4 b0.toNat := by
  apply BitVec.eq_of_toNat_eq
  rw [toNat_extractLsb'_eq, BitVec.toNat_ofNat, pow_zero, Nat.div_one]

/-- Settles O13: field A on its wires decides as in DECODE. -/
theorem decUnitComputesDecode : Obligations.DecUnitComputesDecode := by
  refine ⟨fun b0 b1 b2 a b h => ?_, fun b0 b1 b2 a h => ?_, fun len b0 b1 b2 hlen => if_neg hlen⟩
  · obtain ⟨n, hn, -⟩ := decode_of_codec_ok h
    obtain ⟨hopcode, hoperand⟩ := eq_wordOfPair_iff.mp ((Codec.decode_eq_ok (w := (b0, b1, b2))).mp h).2
    have ha : b0.extractLsb' 0 4 = a := (decWires_eq_opcode b0).trans (ofNat_eq_of_toNat_eq_mod hopcode)
    have hb : (b2 ++ b1 ++ b0.extractLsb' 4 4 : Operand) = b :=
      BitVec.eq_of_toNat_eq ((decWires_eq_operand b0 b1 b2).trans hoperand.symm)
    refine ⟨n, hn, ?_⟩
    simp only [decUnit, ↓reduceIte, ha, hn, hb]
  · obtain ⟨hopcode, hn⟩ := Codec.decode_eq_unknownOpcode.mp h
    have ha : b0.extractLsb' 0 4 = a := (decWires_eq_opcode b0).trans (ofNat_eq_of_toNat_eq_mod hopcode)
    simp only [decUnit, ↓reduceIte, ha, hn]

end Sys2Proof.Machine
end

section
/-! The slots of an image and the passes of its run: which pass finds which slot, and when a run ends without an error
(spec/20_memory.md R47, spec/41_coded_instructions.md R127 to R131, R185). -/

namespace Sys2Proof.Machine

variable {s t : State}

/-! ## Slots -/

/-- A slot that is not the leftover one has three bytes (R32, R47). -/
theorem length_slot_of_whole {image : List Byte} {k : Nat} (h : 3 * k + 3 ≤ image.length) : (slot image k).length = 3 := by
  simp only [slot, imgRead, List.length_take, List.length_drop]
  omega

/-- The leftover slot has the remaining bytes (R47). -/
theorem length_slot_leftover {image : List Byte} {k : Nat} (h : k + 1 = instructionCount image)
    (hleft : image.length % 3 ≠ 0) : (slot image k).length = image.length % 3 := by
  simp only [instructionCount] at h
  simp only [slot, imgRead, List.length_take, List.length_drop]
  omega

/-- Settles O42: the lengths are arithmetic, and the leftover slot is no word. -/
theorem slotsOfAnImage : Obligations.SlotsOfAnImage := by
  intro image
  have hcount : instructionCount image = (image.length + 2) / 3 := rfl
  refine ⟨by omega, by omega, fun hwhole => ⟨by omega, fun i hi => length_slot_of_whole (by omega)⟩, fun hleft =>
    ⟨fun i hi => length_slot_of_whole (by omega), length_slot_leftover (by omega) hleft, ?_⟩⟩
  rintro s rfl hrun hip
  have hlen : s.fetch.length = s.image.length % 3 := length_slot_leftover hip hleft
  exact step_of_decode_error hrun (by omega) (decode_eq_error.mpr ⟨by omega, by rw [hlen]⟩)

/-! ## The passes of a run -/

theorem runFor_add (j k : Nat) (s : State) : runFor (j + k) s = runFor k (runFor j s) := by
  induction j generalizing s with
  | zero => rw [Nat.zero_add]; rfl
  | succ j ih =>
    by_cases hrun : s.status = .running
    · obtain ⟨t, ht⟩ := exists_step_of_running hrun
      rw [Nat.add_right_comm, runFor_of_step ht, runFor_of_step ht, ih]
    · simp only [runFor_of_not_running hrun]

/-- A run that is over stays as it is, however many passes follow (R130). -/
theorem runFor_of_le {j k : Nat} (hjk : j ≤ k) (h : (runFor j s).status ≠ .running) : runFor k s = runFor j s := by
  obtain ⟨d, rfl⟩ := Nat.exists_eq_add_of_le hjk
  rw [runFor_add, runFor_of_not_running h]

/-- No pass moves `ip` back (R127). -/
theorem le_runFor_ip (k : Nat) (s : State) : s.ip ≤ (runFor k s).ip := by
  refine runFor_keeps (P := fun u => s.ip ≤ u.ip) (fun {u v} h hu => ?_) k le_rfl
  obtain ⟨hgoing, hover⟩ := ipOnlyIncrements u v h
  by_cases hv : v.status = .running
  · exact (hgoing hv).symm ▸ Nat.le_succ_of_le hu
  · exact (hover hv).1.symm ▸ hu

theorem runFor_memSize (k : Nat) (s : State) : (runFor k s).memSize = s.memSize :=
  runFor_keeps (P := fun u => u.memSize = s.memSize) (fun hst hs => (step_keeps_image_memSize hst).2.trans hs) k rfl

section Start

variable (image : List Byte) (size : Nat) (mem0 : Memory)

/-- After `k` passes a run goes on at slot `k`, or it was over at an earlier pass (R127, R131). -/
theorem runFor_start_cases (k : Nat) :
    ((runFor k (State.start image size mem0)).status = .running ∧ (runFor k (State.start image size mem0)).ip = k) ∨
      ((runFor k (State.start image size mem0)).status ≠ .running ∧ (runFor k (State.start image size mem0)).ip < k) := by
  induction k with
  | zero => exact .inl ⟨rfl, rfl⟩
  | succ k ih =>
    obtain ⟨hrun, hip⟩ | ⟨hover, hip⟩ := ih
    · obtain hstep | ⟨hover, -⟩ := runFor_succ_cases k (State.start image size mem0)
      · obtain ⟨hgoing, hends⟩ := ipOnlyIncrements _ _ hstep
        by_cases hnext : (runFor (k + 1) (State.start image size mem0)).status = .running
        · exact .inl ⟨hnext, by rw [hgoing hnext, hip]⟩
        · exact .inr ⟨hnext, by rw [(hends hnext).1, hip]; exact Nat.lt_succ_self k⟩
      · exact absurd hrun hover
    · rw [runFor_of_le (Nat.le_succ k) hover]
      exact .inr ⟨hover, Nat.lt_succ_of_lt hip⟩

/-- Any number of passes from one more than the slots on ends the run (R131). -/
theorem runFor_start_eq_run {k : Nat} (hk : instructionCount image + 1 ≤ k) :
    runFor k (State.start image size mem0) = run image size mem0 :=
  runFor_of_le hk (run_status_ne_running image size mem0)

/-- A run that is over after `k` passes has reached its final state. -/
theorem runFor_start_of_over {k : Nat} (h : (runFor k (State.start image size mem0)).status ≠ .running) :
    runFor k (State.start image size mem0) = run image size mem0 := by
  obtain hle | hle := Nat.le_total k (instructionCount image + 1)
  · exact (runFor_of_le hle h).symm
  · exact runFor_start_eq_run image size mem0 hle

/-- A run goes on after `k` passes exactly for `k` up to its final `ip` (R127, R131). -/
theorem runFor_start_running_iff {k : Nat} :
    (runFor k (State.start image size mem0)).status = .running ↔ k ≤ (run image size mem0).ip := by
  constructor
  · intro hrun
    have hip : (runFor k (State.start image size mem0)).ip = 0 + k := runFor_ip_of_running hrun
    obtain hle | hle := Nat.le_total k (instructionCount image + 1)
    · obtain ⟨d, hd⟩ := Nat.exists_eq_add_of_le hle
      have hlater := le_runFor_ip d (runFor k (State.start image size mem0))
      rw [← runFor_add, ← hd, hip, Nat.zero_add] at hlater
      exact hlater
    · rw [runFor_start_eq_run image size mem0 hle] at hrun
      exact absurd hrun (run_status_ne_running image size mem0)
  · intro hk
    obtain ⟨hrun, -⟩ | ⟨hover, hip⟩ := runFor_start_cases image size mem0 k
    · exact hrun
    · rw [runFor_start_of_over image size mem0 hover] at hip
      omega

/-- Up to its final `ip`, a run is at slot `k` after `k` passes (R127). -/
theorem runFor_start_of_le_ip {k : Nat} (hk : k ≤ (run image size mem0).ip) :
    (runFor k (State.start image size mem0)).status = .running ∧ (runFor k (State.start image size mem0)).ip = k := by
  have hrun := (runFor_start_running_iff image size mem0).mpr hk
  exact ⟨hrun, (runFor_ip_of_running hrun).trans (Nat.zero_add k)⟩

/-- The pass after that of the final `ip` is not needed (R131). -/
theorem runFor_start_final_ip : runFor ((run image size mem0).ip + 1) (State.start image size mem0) = run image size mem0 :=
  runFor_start_of_over image size mem0 fun hrun =>
    Nat.not_succ_le_self _ ((runFor_start_running_iff image size mem0).mp hrun)

/-- Up to its final `ip`, every pass of a run is a step (R120). -/
theorem step_runFor_start {k : Nat} (hk : k ≤ (run image size mem0).ip) :
    step (runFor k (State.start image size mem0)) = .next (runFor (k + 1) (State.start image size mem0)) := by
  obtain hstep | ⟨hover, -⟩ := runFor_succ_cases k (State.start image size mem0)
  · exact hstep
  · exact absurd (runFor_start_of_le_ip image size mem0 hk).1 hover

/-- Up to its final `ip`, pass `k` of a run executes what slot `k` holds (R105, R120). -/
theorem step_runFor_start_of_decode {k : Nat} (hk : k ≤ (run image size mem0).ip) (hcount : k < instructionCount image)
    {i : Instr} (hdecode : decode (slot image k) = .ok i) :
    step (runFor k (State.start image size mem0)) = exec i (runFor k (State.start image size mem0)) := by
  obtain ⟨hrun, hip⟩ := runFor_start_of_le_ip image size mem0 hk
  refine step_of_decode_ok hrun ?_ ?_
  · rwa [runFor_image, State.start_image, hip]
  · rwa [State.fetch, runFor_image, State.start_image, hip]

end Start

/-- Settles O43: a run goes on exactly up to its final `ip`, and how it ended is known of every run. -/
theorem runTerminatesWithinSlotCount : Obligations.RunTerminatesWithinSlotCount := by
  intro image size mem0 n s0 final
  have hends := run_end_cases image size mem0
  refine ⟨run_status_ne_running image size mem0, fun k => runFor_start_eq_run image size mem0,
    fun k => runFor_start_of_le_ip image size mem0, fun hst => ?_, fun hst => ⟨?_, runFor_start_final_ip ..⟩⟩
  · obtain ⟨-, hip, -⟩ | ⟨hhalted, -⟩ := hends
    · exact hip
    · exact absurd (hst.symm.trans hhalted) (by decide)
  · obtain ⟨hcompleted, -⟩ | ⟨-, hip, -⟩ := hends
    · exact absurd (hst.symm.trans hcompleted) (by decide)
    · exact hip

end Sys2Proof.Machine
end

section
/-! The image of a list of named instructions, and that the stack discipline and the address range keep its run from every
error (spec/41_coded_instructions.md section 2, spec/70_reset_and_hazards.md R185). -/

namespace Sys2Proof.Machine

/-! ## The image of a program -/

/-- The concatenated encodings of a list of named instructions (R69). -/
def programImage (program : List (OpName × Nat)) : List Byte := program.flatMap fun p => encode (instrNamed p.1 p.2)

theorem programImage_cons (p : OpName × Nat) (program : List (OpName × Nat)) :
    programImage (p :: program) = encode (instrNamed p.1 p.2) ++ programImage program := rfl

/-- The image has a slot for each instruction (R47, R50). -/
theorem instructionCount_programImage (program : List (OpName × Nat)) :
    instructionCount (programImage program) = program.length := by
  have hlen : (programImage program).length = 3 * program.length := by
    induction program with
    | nil => rfl
    | cons p program ih =>
      rw [programImage_cons, List.length_append, ih, List.length_cons]
      exact (Nat.add_comm ..).trans (Nat.mul_succ ..).symm
  rw [instructionCount, hlen]
  omega

/-- Slot `k` of the image holds instruction `k` (R32, R69). -/
theorem slot_programImage {program : List (OpName × Nat)} {k : Nat} {p : OpName × Nat} (h : program[k]? = some p) :
    slot (programImage program) k = encode (instrNamed p.1 p.2) := by
  induction program generalizing k with
  | nil => cases h
  | cons q program ih =>
    cases k with
    | zero => cases h; rfl
    | succ k => exact ih h

/-! ## The stack discipline -/

variable {program : List (OpName × Nat)} {size : Nat} {mem0 : Memory}

/-- How many of the first `k` instructions pop. -/
def popsBefore (program : List (OpName × Nat)) (k : Nat) : Nat :=
  (program.take k).countP fun p => p.1 == .writeValue

theorem popsBefore_succ {k : Nat} {p : OpName × Nat} (h : program[k]? = some p) :
    popsBefore program (k + 1) = popsBefore program k + if p.1 = .writeValue then 1 else 0 := by
  simp [popsBefore, List.take_add_one, h, List.countP_append, List.countP_cons]

/-- A canonical instruction of the program is what its slot decodes to (R58, R69). -/
theorem decode_slot_programImage (hcanonical : ∀ p ∈ program, p.2 ≤ 32767) {k : Nat} {p : OpName × Nat}
    (h : program[k]? = some p) : decode (slot (programImage program) k) = .ok (instrNamed p.1 p.2) := by
  rw [slot_programImage h]
  refine decodeOfEncodedInstruction _ ?_
  have hp : p.2 ≤ 32767 := hcanonical p (List.mem_of_getElem? h)
  rw [Instr.WellFormed, instrNamed_operand]
  omega

/-- Up to its final `ip`, pass `k` of the run of a program executes its instruction `k`. -/
theorem exec_of_program_run (hcanonical : ∀ p ∈ program, p.2 ≤ 32767) {k : Nat} {p : OpName × Nat}
    (hk : k ≤ (run (programImage program) size mem0).ip) (h : program[k]? = some p) :
    exec (instrNamed p.1 p.2) (runFor k (State.start (programImage program) size mem0)) =
      .next (runFor (k + 1) (State.start (programImage program) size mem0)) := by
  have hcount : k < instructionCount (programImage program) := by
    rw [instructionCount_programImage]
    exact (List.getElem?_eq_some_iff.mp h).1
  rw [← step_runFor_start_of_decode _ size mem0 hk hcount (decode_slot_programImage hcanonical h)]
  exact step_runFor_start _ size mem0 hk

/-- Each completed instruction pushed one value or popped one, so the depth is what was not popped (R132). -/
theorem stackDepth_of_program_run (hcanonical : ∀ p ∈ program, p.2 ≤ 32767) {k : Nat}
    (hk : k ≤ (run (programImage program) size mem0).ip) (hlen : k ≤ program.length) :
    (runFor k (State.start (programImage program) size mem0)).stackDepth + 2 * popsBefore program k = k := by
  induction k with
  | zero => rfl
  | succ k ih =>
    have hdepth := ih (Nat.le_of_succ_le hk) (Nat.le_of_succ_le hlen)
    obtain ⟨p, hp⟩ : ∃ p, program[k]? = some p := ⟨_, List.getElem?_eq_getElem hlen⟩
    have hexec := exec_of_program_run hcanonical (Nat.le_of_succ_le hk) hp
    have hip : (runFor (k + 1) (State.start (programImage program) size mem0)).ip =
        (runFor k (State.start (programImage program) size mem0)).ip + 1 := by
      rw [(runFor_start_of_le_ip _ size mem0 hk).2, (runFor_start_of_le_ip _ size mem0 (Nat.le_of_succ_le hk)).2]
    obtain ⟨hpop, hpush⟩ := stackDepthIsBounded.1 _ _ _ hexec hip
    rw [popsBefore_succ hp]
    by_cases hw : p.1 = .writeValue
    · have hone := hpop p.2 (by rw [hw]; rfl)
      rw [if_pos hw]
      omega
    · have hone := hpush fun b hb => hw (instrNamed_inj (m := .writeValue) (c := b).mp hb).1
      rw [if_neg hw]
      omega

/-- Where a canonical program keeps the discipline and the range, no instruction of its run finds an error: the slot decodes,
a `write_value` has a value to pop, and every address is in the memory. -/
theorem not_slotFails_of_disciplined (hcanonical : ∀ p ∈ program, p.2 ≤ 32767)
    (hrange : ∀ p ∈ program, p.1 ≠ .loadConst → p.2 < size) (hstack : KeepsStackDiscipline program) {k : Nat}
    (hk : k ≤ (run (programImage program) size mem0).ip) (hlen : k < program.length) {e : RunError} {u : State} :
    ¬SlotFails (runFor k (State.start (programImage program) size mem0)) e u := by
  obtain ⟨p, hp⟩ : ∃ p, program[k]? = some p := ⟨_, List.getElem?_eq_getElem hlen⟩
  have hslot : decode (runFor k (State.start (programImage program) size mem0)).fetch = .ok (instrNamed p.1 p.2) := by
    rw [State.fetch, runFor_image, State.start_image, (runFor_start_of_le_ip _ size mem0 hk).2]
    exact decode_slot_programImage hcanonical hp
  have hholds : ∀ {name b}, decode (runFor k (State.start (programImage program) size mem0)).fetch =
      .ok (instrNamed name b) → p.1 = name ∧ p.2 = b := fun h => instrNamed_inj.mp (Except.ok.inj (hslot.symm.trans h))
  have haddress : p.1 ≠ .loadConst → ¬(runFor k (State.start (programImage program) size mem0)).memSize ≤ p.2 := by
    rw [runFor_memSize, State.start_memSize, Nat.not_le]
    exact hrange p (List.mem_of_getElem? hp)
  intro hfails
  cases hfails with
  | undecoded hdecode =>
    obtain ⟨x, hx, -⟩ := codecDecode_of_decode hslot
    cases hx.symm.trans hdecode
  | noValue hdecode hempty =>
    obtain ⟨hname, -⟩ := hholds (name := .writeValue) hdecode
    have hdepth := stackDepth_of_program_run hcanonical hk hlen.le
    rw [State.stackDepth, hempty, List.length_nil] at hdepth
    have hpops : 2 * popsBefore program (k + 1) ≤ k + 1 := hstack (k + 1) hlen
    rw [popsBefore_succ hp, if_pos hname] at hpops
    omega
  | noCellToStore hdecode hcons hb =>
    obtain ⟨hname, rfl⟩ := hholds (name := .writeValue) hdecode
    exact haddress (by simp [hname]) hb
  | noCellToLoad hname hdecode hb =>
    obtain ⟨rfl, rfl⟩ := hholds hdecode
    exact haddress (by rcases hname with h | h <;> simp [h]) hb

/-- Settles O49: a run that halts has found an error at its final `ip`, and this one finds none. -/
theorem disciplinedProgramsComplete : Obligations.DisciplinedProgramsComplete := by
  intro program size mem0 hcanonical hrange hstack final
  have hends := run_end_cases (programImage program) size mem0
  rw [instructionCount_programImage] at hends
  obtain ⟨hcompleted, hip, -⟩ | ⟨hhalted, hip, -⟩ := hends
  · refine ⟨?_, hcompleted, hip⟩
    exact fun h => absurd (hcompleted.symm.trans h) (by decide)
  · have hlast := step_runFor_start _ size mem0 (le_refl (run (programImage program) size mem0).ip)
    rw [runFor_start_final_ip] at hlast
    obtain ⟨-, e, u, hfails, -⟩ := slotFails_of_step hlast hhalted
    exact absurd hfails (not_slotFails_of_disciplined hcanonical hrange hstack le_rfl hip)

end Sys2Proof.Machine
end

section
/-! The readers of the Assembler against what they read: UTF-8 text, lines, and tokens (spec/30_encoding.md R63, R65,
R72). -/

namespace Sys2Proof.Machine

/-! ## UTF-8 -/

/-- The layout of UTF-8 is that of Lean's own encoder (R63). -/
theorem utf8Char_eq_utf8EncodeChar (c : Char) : utf8Char c = (String.utf8EncodeChar c).map UInt8.toBitVec := by
  have hc : c.toNat < 1114112 := char_toNat_lt c
  have hval : c.val.toNat = c.toNat := rfl
  simp only [utf8Char, String.utf8EncodeChar, hval, ← Nat.lt_succ_iff, Nat.succ_eq_add_one, Nat.reduceAdd]
  split_ifs with h1 h2 h3 <;> simp only [List.map_cons, List.map_nil, UInt8.toBitVec_ofNat', Nat.add_comm]
  · rw [Nat.mod_eq_of_lt (a := c.toNat / 64) (b := 32) (by omega)]
  · rw [Nat.mod_eq_of_lt (a := c.toNat / 4096) (b := 16) (by omega)]
  · rw [Nat.mod_eq_of_lt (a := c.toNat / 262144) (b := 8) (by omega)]

/-- The last `k` bytes of a character with code `n`: six bits each, the highest first (R63). -/
def followingBytes : Nat → Nat → List Byte
  | 0, _ => []
  | k + 1, n => BitVec.ofNat 8 (0x80 + n / 64 ^ k % 64) :: followingBytes k n

/-- A byte is the number it holds. -/
theorem byte_eq_ofNat {b : Byte} {n : Nat} (h : b.toNat = n) : b = BitVec.ofNat 8 n := by
  rw [← h, BitVec.ofNat_toNat, BitVec.setWidth_eq]

/-- Once a character is begun, the reader takes its remaining bytes: its code continues the value read so far, and is not
below the least code of its form. -/
theorem readUtf8_succ_eq_some {k value least : Nat} {bytes : List Byte} {text : List Char}
    (h : readUtf8 (k + 1) value least bytes = some text) :
    ∃ c cs rest, least ≤ c.toNat ∧ c.toNat / 64 ^ (k + 1) = value ∧ bytes = followingBytes (k + 1) c.toNat ++ rest ∧
      decodeUtf8 rest = some cs ∧ text = c :: cs := by
  induction k generalizing value bytes with
  | zero =>
    cases bytes with
    | nil => simp [readUtf8] at h
    | cons b rest =>
      simp only [readUtf8] at h
      split at h
      · next hb =>
        obtain ⟨c, cs, hc, hrest, rfl⟩ := beforeRest_eq_some.mp h
        obtain ⟨hleast, hcode⟩ := utf8Scalar_eq_some hc
        rw [← hcode] at hleast
        refine ⟨c, cs, rest, hleast, by omega, ?_, hrest, rfl⟩
        rw [byte_eq_ofNat (b := b) (n := 0x80 + c.toNat / 64 ^ 0 % 64) (by omega)]
        rfl
      · simp at h
  | succ k ih =>
    cases bytes with
    | nil => simp [readUtf8] at h
    | cons b rest =>
      rw [readUtf8] at h
      split at h
      · next hb =>
        obtain ⟨c, cs, rest, hleast, hcode, rfl, hrest, rfl⟩ := ih h
        have hvalue : c.toNat / 64 ^ (k + 1 + 1) = c.toNat / 64 ^ (k + 1) / 64 := by
          rw [Nat.div_div_eq_div_mul, ← pow_succ]
        refine ⟨c, cs, rest, hleast, by omega, ?_, hrest, rfl⟩
        rw [byte_eq_ofNat (b := b) (n := 0x80 + c.toNat / 64 ^ (k + 1) % 64) (by omega)]
        rfl
      · simp at h

/-- Bytes that read as a text begin with the bytes of its first character. -/
theorem decodeUtf8_cons_eq_some {b : Byte} {bytes : List Byte} {text : List Char}
    (h : decodeUtf8 (b :: bytes) = some text) :
    ∃ c cs rest, b :: bytes = utf8Char c ++ rest ∧ decodeUtf8 rest = some cs ∧ text = c :: cs := by
  have hb : b.toNat < 256 := b.isLt
  rw [decodeUtf8, readUtf8] at h
  split_ifs at h with h1 h2 h3 h4
  · obtain ⟨c, cs, hc, hrest, rfl⟩ := beforeRest_eq_some.mp h
    obtain ⟨-, hcode⟩ := utf8Scalar_eq_some hc
    refine ⟨c, cs, bytes, ?_, hrest, rfl⟩
    rw [utf8Char, if_pos (by omega), byte_eq_ofNat hcode.symm]
    rfl
  · obtain ⟨c, cs, rest, hleast, hcode, rfl, hrest, rfl⟩ := readUtf8_succ_eq_some h
    refine ⟨c, cs, rest, ?_, hrest, rfl⟩
    rw [utf8Char, if_neg (by omega), if_pos (by omega), byte_eq_ofNat (b := b) (n := 0xC0 + c.toNat / 64) (by omega)]
    simp [followingBytes]
  · obtain ⟨c, cs, rest, hleast, hcode, rfl, hrest, rfl⟩ := readUtf8_succ_eq_some h
    refine ⟨c, cs, rest, ?_, hrest, rfl⟩
    rw [utf8Char, if_neg (by omega), if_neg (by omega), if_pos (by omega),
      byte_eq_ofNat (b := b) (n := 0xE0 + c.toNat / 4096) (by omega)]
    simp [followingBytes]
  · obtain ⟨c, cs, rest, hleast, hcode, rfl, hrest, rfl⟩ := readUtf8_succ_eq_some h
    refine ⟨c, cs, rest, ?_, hrest, rfl⟩
    rw [utf8Char, if_neg (by omega), if_neg (by omega), if_neg (by omega),
      byte_eq_ofNat (b := b) (n := 0xF0 + c.toNat / 262144) (by omega)]
    simp [followingBytes]

/-- The reader and the encoder of UTF-8 are inverse to each other (R63). -/
theorem decodeUtf8_eq_some_iff {bytes : List Byte} {text : List Char} :
    decodeUtf8 bytes = some text ↔ bytes = encodeUtf8 text := by
  induction text generalizing bytes with
  | nil =>
    cases bytes with
    | nil => exact iff_of_true rfl rfl
    | cons b bytes =>
      refine iff_of_false (fun h => ?_) (by simp [encodeUtf8])
      obtain ⟨c, cs, rest, -, -, htext⟩ := decodeUtf8_cons_eq_some h
      cases htext
  | cons c cs ih =>
    have hencode : encodeUtf8 (c :: cs) = utf8Char c ++ encodeUtf8 cs := rfl
    constructor
    · intro h
      cases bytes with
      | nil => cases h
      | cons b bytes =>
        obtain ⟨c', cs', rest, hbytes, hrest, htext⟩ := decodeUtf8_cons_eq_some h
        cases htext
        rw [hbytes, ih.mp hrest, hencode]
    · rintro rfl
      rw [hencode, decodeUtf8_char, ih.mpr rfl, Option.map_some]

/-- The assembly of a source is that of its text (R63). -/
theorem assembleBytes_encodeUtf8 (text : List Char) : assembleBytes (encodeUtf8 text) = some (assemble text) := by
  rw [assembleBytes, decodeUtf8_eq_some_iff.mpr rfl, Option.map_some]

/-- Bytes that are no text's have no assembly. -/
theorem assembleBytes_eq_none {bytes : List Byte} (h : ∀ text, bytes ≠ encodeUtf8 text) : assembleBytes bytes = none := by
  rw [assembleBytes, Option.map_eq_none_iff, Option.eq_none_iff_forall_ne_some]
  exact fun text htext => h text (decodeUtf8_eq_some_iff.mp htext)

/-! ## Lines -/

/-- A line feed ends the line before it (R72). -/
theorem splitLines_line {line : List Char} (h : '\n' ∉ line) (rest : List Char) :
    splitLines (line ++ '\n' :: rest) = line :: splitLines rest := by
  induction line with
  | nil => exact splitLines_newline rest
  | cons c line ih =>
    obtain ⟨hc, hline⟩ := not_or.mp (mt List.mem_cons.mpr h)
    exact splitLines_cons (Ne.symm hc) (ih hline)

/-- A non-empty rest without a line feed is a last line (R72). -/
theorem splitLines_last {last : List Char} (hne : last ≠ []) (h : '\n' ∉ last) : splitLines last = [last] := by
  induction last with
  | nil => exact absurd rfl hne
  | cons c rest ih =>
    obtain ⟨hc, hrest⟩ := not_or.mp (mt List.mem_cons.mpr h)
    cases rest with
    | nil => exact splitLines_singleton (Ne.symm hc)
    | cons d rest => exact splitLines_cons (Ne.symm hc) (ih (by simp) hrest)

/-- Lines that are each followed by a line feed are the lines of the text, before those of the rest (R72). -/
theorem splitLines_lines {lines : List (List Char)} (h : ∀ l ∈ lines, '\n' ∉ l) (rest : List Char) :
    splitLines ((lines.flatMap fun l => l ++ ['\n']) ++ rest) = lines ++ splitLines rest := by
  induction lines with
  | nil => rfl
  | cons line lines ih =>
    obtain ⟨hline, hlines⟩ := List.forall_mem_cons.mp h
    simp only [List.flatMap_cons, List.append_assoc, List.cons_append, List.nil_append]
    rw [splitLines_line hline, ih hlines]

/-! ## Tokens -/

/-- Any whitespace before a token is skipped (R72). -/
theorem tokens_blanks_append {blanks : List Char} (h : ∀ c ∈ blanks, isBlank c = true) (rest : List Char) :
    tokens (blanks ++ rest) = tokens rest := by
  induction blanks with
  | nil => rfl
  | cons c blanks ih =>
    obtain ⟨hc, hblanks⟩ := List.forall_mem_cons.mp h
    exact (tokens_blank_cons hc _).trans (ih hblanks)

/-- Whitespace alone has no token. -/
theorem tokens_blanks {blanks : List Char} (h : ∀ c ∈ blanks, isBlank c = true) : tokens blanks = [] := by
  simpa [tokens] using tokens_blanks_append h []

/-- A piece without whitespace is a token where the text ends after it or goes on with whitespace (R65). -/
theorem tokens_piece_append {piece rest : List Char} (hne : piece ≠ []) (hpiece : ∀ c ∈ piece, isBlank c = false)
    (hrest : ∀ c ∈ rest.head?, isBlank c = true) : tokens (piece ++ rest) = piece :: tokens rest := by
  induction piece with
  | nil => exact absurd rfl hne
  | cons c piece ih =>
    obtain ⟨hc, htail⟩ := List.forall_mem_cons.mp hpiece
    cases piece with
    | nil =>
      cases rest with
      | nil => exact tokens_singleton hc
      | cons d rest =>
        have hd : isBlank d = true := hrest d rfl
        exact (tokens_cons_blank hc hd rest).trans (congrArg _ (tokens_blank_cons hd rest).symm)
    | cons d piece => exact tokens_cons_cons hc (htail d (List.mem_cons_self ..)) (ih (by simp) htail)

/-- Pieces separated by whitespace are the tokens (R65, R72). -/
theorem tokens_pieces {first back : List Char} {pieces : List (List Char × List Char)} (hne : first ≠ [])
    (hfirst : ∀ c ∈ first, isBlank c = false)
    (hpieces : ∀ p ∈ pieces, p.1 ≠ [] ∧ (∀ c ∈ p.1, isBlank c = true) ∧ p.2 ≠ [] ∧ (∀ c ∈ p.2, isBlank c = false))
    (hback : ∀ c ∈ back, isBlank c = true) :
    tokens (first ++ ((pieces.flatMap fun p => p.1 ++ p.2) ++ back)) = first :: pieces.map fun p => p.2 := by
  induction pieces generalizing first with
  | nil =>
    have hhead : ∀ c ∈ back.head?, isBlank c = true := fun c hc => hback c (List.mem_of_mem_head? hc)
    exact (tokens_piece_append hne hfirst hhead).trans (congrArg _ (tokens_blanks hback))
  | cons p pieces ih =>
    obtain ⟨⟨hgap, hblank, hpiece, hpiece'⟩, hpieces⟩ := List.forall_mem_cons.mp hpieces
    simp only [List.flatMap_cons, List.append_assoc, List.map_cons]
    rw [tokens_piece_append hne hfirst, tokens_blanks_append hblank, ih hpiece hpiece' hpieces]
    intro c hc
    rw [List.head?_append_of_ne_nil _ hgap] at hc
    exact hblank c (List.mem_of_mem_head? hc)

end Sys2Proof.Machine
end

section
/-! One line of a source: what is stripped from it, and the checks on its tokens in their order (spec/30_encoding.md R64 to
R67, R73). -/

namespace Sys2Proof.Machine

variable {n : Nat} {line : List Char}

/-! ## Prepared lines -/

theorem isBlank_iff {c : Char} : isBlank c = true ↔ c = ' ' ∨ c = '\t' ∨ c = '\r' := by
  simp [isBlank, or_assoc]

/-- Whitespace around a line is trimmed (R64). -/
theorem trim_append {front back : List Char} (hfront : ∀ c ∈ front, isBlank c = true)
    (hback : ∀ c ∈ back, isBlank c = true) (line : List Char) : trim (front ++ line ++ back) = trim line := by
  have hback' : ∀ c ∈ back.reverse, isBlank c = true := fun c hc => hback c (List.mem_reverse.mp hc)
  rw [trim, trim, List.append_assoc, List.dropWhile_append_of_pos hfront, List.dropWhile_append]
  split_ifs with h
  · rw [List.isEmpty_iff.mp h, List.dropWhile_eq_nil_iff.mpr hback]
  · rw [List.reverse_append, List.dropWhile_append_of_pos hback']

/-- A line that neither begins nor ends with whitespace stays as it is. -/
theorem trim_eq_self {line : List Char} (hhead : ∀ c ∈ line.head?, isBlank c = false)
    (hlast : ∀ c ∈ line.getLast?, isBlank c = false) : trim line = line := by
  have hkeep : ∀ l : List Char, (∀ c ∈ l.head?, isBlank c = false) → l.dropWhile isBlank = l := by
    intro l hl
    cases l with
    | nil => rfl
    | cons c l => rw [List.dropWhile_cons_of_neg (by simp [hl c rfl])]
  rw [trim, hkeep line hhead, hkeep line.reverse (by rwa [List.head?_reverse]), List.reverse_reverse]

/-- A line without `#` has no comment to strip (R64). -/
theorem prepare_of_no_comment (h : '#' ∉ line) : prepare line = trim line := by
  rw [prepare, List.takeWhile_eq_self_iff.mpr]
  intro c hc
  exact bne_iff_ne.mpr fun hne => h (hne ▸ hc)

/-- A comment is stripped (R64). -/
theorem prepare_comment (line comment : List Char) : prepare (line ++ '#' :: comment) = prepare line := by
  have hstop : List.takeWhile (fun c => c != '#') ('#' :: comment) = [] := rfl
  simp only [prepare, List.takeWhile_append, hstop, List.append_nil]
  split_ifs with h
  · rw [(List.takeWhile_prefix _).eq_of_length h]
  · rfl

theorem not_mem_of_blanks {blanks : List Char} {d : Char} (h : ∀ c ∈ blanks, isBlank c = true) (hd : isBlank d = false) :
    d ∉ blanks := by
  intro hmem
  simp [h d hmem] at hd

/-- Whitespace around a line without comment is stripped (R64). -/
theorem prepare_append {front back : List Char} (hfront : ∀ c ∈ front, isBlank c = true)
    (hback : ∀ c ∈ back, isBlank c = true) (hline : '#' ∉ line) : prepare (front ++ line ++ back) = prepare line := by
  have hcomment : '#' ∉ front ++ line ++ back := by
    simp only [List.mem_append, not_or]
    exact ⟨⟨not_mem_of_blanks hfront rfl, hline⟩, not_mem_of_blanks hback rfl⟩
  rw [prepare_of_no_comment hcomment, prepare_of_no_comment hline, trim_append hfront hback]

/-! ## The checks on a line -/

/-- Only the prepared line matters (R64). -/
theorem parseLine_congr {line' : List Char} (h : prepare line = prepare line') : parseLine n line = parseLine n line' := by
  simp only [parseLine, h]

/-- A blank line is skipped (R64). -/
theorem parseLine_of_blank (h : prepare line = []) : parseLine n line = .ok none := by
  simp [parseLine, h]

theorem prepare_ne_nil_of_tokens (h : tokens (prepare line) ≠ []) : prepare line ≠ [] := by
  intro hnil
  rw [hnil] at h
  exact h rfl

/-- On a line that is not blank, only the tokens matter (R65). -/
theorem parseLine_congr_tokens {line' : List Char} (h : tokens (prepare line) = tokens (prepare line'))
    (hne : tokens (prepare line) ≠ []) : parseLine n line = parseLine n line' := by
  have h1 := prepare_ne_nil_of_tokens hne
  have h2 := prepare_ne_nil_of_tokens (h ▸ hne)
  simp only [parseLine, List.isEmpty_iff, h1, h2, h, ↓reduceIte]

/-- The first check: any number of tokens but two is an error (R65, R73). -/
theorem parseLine_of_tokenCount (hne : prepare line ≠ []) (h : (tokens (prepare line)).length ≠ 2) :
    parseLine n line = .error ⟨n, .tokenCount⟩ := by
  simp only [parseLine, List.isEmpty_iff, hne, ↓reduceIte]
  split
  · next htokens => simp [htokens] at h
  · rfl

section TwoTokens

variable {command argument : List Char} (htokens : tokens (prepare line) = [command, argument])
include htokens

/-- The second check: the argument is an integer, whatever the command is (R66, R73). -/
theorem parseLine_of_badLiteral (h : parseLiteral argument = none) :
    parseLine n line = .error ⟨n, .badLiteral argument⟩ := by
  have hne : prepare line ≠ [] := prepare_ne_nil_of_tokens (by simp [htokens])
  simp [parseLine, hne, htokens, h]

/-- The third check: the command is a name (R67, R73). -/
theorem parseLine_of_unknownCommand {z : Int} (hz : parseLiteral argument = some z) (h : lookupCommand command = none) :
    parseLine n line = .error ⟨n, .unknownCommand command⟩ := by
  have hne : prepare line ≠ [] := prepare_ne_nil_of_tokens (by simp [htokens])
  simp [parseLine, hne, htokens, hz, h]

/-- A line that passes the three checks gives its instruction (R68). -/
theorem parseLine_of_instruction {z : Int} {name : OpName} (hz : parseLiteral argument = some z)
    (h : lookupCommand command = some name) : parseLine n line = .ok (some ⟨n, name, z⟩) := by
  have hne : prepare line ≠ [] := prepare_ne_nil_of_tokens (by simp [htokens])
  simp [parseLine, hne, htokens, hz, h]

end TwoTokens

/-! ## Lines of two tokens -/

/-- A command or an argument as it can stand on a line: characters that are neither whitespace nor `#`. -/
def IsPlain (piece : List Char) : Prop := piece ≠ [] ∧ ∀ c ∈ piece, isBlank c = false ∧ c ≠ '#'

theorem IsPlain.not_blank {piece : List Char} (h : IsPlain piece) : ∀ c ∈ piece, isBlank c = false :=
  fun c hc => (h.2 c hc).1

theorem IsPlain.no_comment {piece : List Char} (h : IsPlain piece) : '#' ∉ piece :=
  fun hc => (h.2 _ hc).2 rfl

/-- Two plain pieces with whitespace before, between and after them are the tokens of their line (R65, R72). -/
theorem tokens_prepare_two {front command gap argument back : List Char} (hfront : ∀ c ∈ front, isBlank c = true)
    (hgap : gap ≠ [] ∧ ∀ c ∈ gap, isBlank c = true) (hback : ∀ c ∈ back, isBlank c = true) (hcommand : IsPlain command)
    (hargument : IsPlain argument) :
    tokens (prepare (front ++ (command ++ gap ++ argument) ++ back)) = [command, argument] := by
  have hcomment : '#' ∉ command ++ gap ++ argument := by
    simp only [List.mem_append, not_or]
    exact ⟨⟨hcommand.no_comment, not_mem_of_blanks hgap.2 rfl⟩, hargument.no_comment⟩
  have htrim : trim (command ++ gap ++ argument) = command ++ gap ++ argument := by
    apply trim_eq_self
    · intro c hc
      rw [List.append_assoc, List.head?_append_of_ne_nil _ hcommand.1] at hc
      exact hcommand.not_blank c (List.mem_of_mem_head? hc)
    · intro c hc
      rw [List.getLast?_append_of_ne_nil _ hargument.1] at hc
      exact hargument.not_blank c (List.mem_of_mem_getLast? hc)
  rw [prepare_append hfront hback hcomment, prepare_of_no_comment hcomment, htrim]
  simpa using tokens_pieces (pieces := [(gap, argument)]) (back := []) hcommand.1 hcommand.not_blank
    (by simpa using ⟨hgap.1, hgap.2, hargument.1, hargument.not_blank⟩) (by simp)

/-- A line of a command, one space and an argument has these two tokens (R74). -/
theorem tokens_prepare_spaced {command argument : List Char} (hcommand : IsPlain command) (hargument : IsPlain argument) :
    tokens (prepare (command ++ ' ' :: argument)) = [command, argument] := by
  simpa using tokens_prepare_two (front := []) (gap := [' ']) (back := []) (by simp) (by simp [isBlank]) (by simp)
    hcommand hargument

/-- Settles O52: UTF-8 by the inverse laws, lines and tokens by what is read piece by piece; the two tokens of a line are
all that its parse looks at. -/
theorem linesAndTokensSplit : Obligations.LinesAndTokensSplit := by
  refine ⟨fun text => List.flatMap_congr fun c _ => utf8Char_eq_utf8EncodeChar c, fun _ _ => decodeUtf8_eq_some_iff,
    fun bytes => ⟨fun text h => h ▸ assembleBytes_encodeUtf8 text, assembleBytes_eq_none⟩,
    fun lines last hlines hlast => ⟨?_, fun hne => ?_⟩, fun _ => tokens_blanks, ?_, ?_, fun _ => isBlank_iff⟩
  · simpa [splitLines] using splitLines_lines hlines []
  · rw [splitLines_lines hlines, splitLines_last hne hlast]
  · intro front first pieces back hfront hne hfirst hpieces hback
    simp only [List.append_assoc]
    rw [tokens_blanks_append hfront]
    exact tokens_pieces hne hfirst hpieces hback
  · intro front command gap argument back hfront hgap hback hcommandne hgapne hargumentne hcommand hargument
    have htokens : tokens (prepare (front ++ command ++ gap ++ argument ++ back)) = [command, argument] := by
      simpa only [List.append_assoc] using
        tokens_prepare_two hfront ⟨hgapne, hgap⟩ hback ⟨hcommandne, hcommand⟩ ⟨hargumentne, hargument⟩
    refine ⟨htokens, fun n => parseLine_congr_tokens ?_ (htokens ▸ List.cons_ne_nil _ _)⟩
    rw [htokens, tokens_prepare_spaced ⟨hcommandne, hcommand⟩ ⟨hargumentne, hargument⟩]

end Sys2Proof.Machine
end

section
/-! Integer literals and command names, the order of the checks, and comments (spec/30_encoding.md R64, R66, R67, R73). -/

namespace Sys2Proof.Machine

/-! ## Command names -/

/-- The lookup compares with the four spellings and nothing else (R67). -/
theorem lookupCommand_eq_some_iff {command : List Char} {name : OpName} :
    lookupCommand command = some name ↔ command = spelling name := by
  constructor
  · intro h
    unfold lookupCommand at h
    split_ifs at h with h1 h2 h3 h4 <;> cases h <;> assumption
  · rintro rfl
    cases name <;> rfl

theorem lookupCommand_eq_none {command : List Char} (h : ∀ name, command ≠ spelling name) :
    lookupCommand command = none :=
  Option.eq_none_iff_forall_ne_some.mpr fun name hname => h name (lookupCommand_eq_some_iff.mp hname)

/-- Settles O51: the four comparisons, and the third check of a line. -/
theorem commandLookupIsExact : Obligations.CommandLookupIsExact := by
  refine ⟨fun _ _ => lookupCommand_eq_some_iff, ?_, ?_, ?_, ?_, rfl, rfl, rfl, rfl,
    fun n line command argument z htokens hz hne => parseLine_of_unknownCommand htokens hz (lookupCommand_eq_none hne)⟩
  all_goals decide

/-! ## Integer literals -/

theorem isDecimalDigit_iff {c : Char} : isDecimalDigit c = true ↔ '0' ≤ c ∧ c ≤ '9' := by
  simp only [isDecimalDigit, Bool.and_eq_true, decide_eq_true_eq, Char.le_def, UInt32.le_iff_toNat_le]
  rfl

/-- Digits and nothing else are read in base 10 (R66). -/
theorem parseDigits_eq_some_iff {ds : List Char} {v : Nat} :
    parseDigits ds = some v ↔ ds ≠ [] ∧ (∀ c ∈ ds, '0' ≤ c ∧ c ≤ '9') ∧ Nat.ofDigitChars 10 ds 0 = v := by
  rw [Nat.ofDigitChars_eq_foldl]
  simp [parseDigits, digitValue, isDecimalDigit_iff, and_assoc]

/-- The digits read from the left give what `Nat.ofDigits` gives from the right. -/
theorem ofDigitChars_eq_ofDigits (ds : List Char) :
    Nat.ofDigitChars 10 ds 0 = Nat.ofDigits 10 (ds.reverse.map fun c => c.toNat - '0'.toNat) := by
  rw [Nat.ofDigitChars_eq_foldl, ← List.foldr_reverse, Nat.ofDigits_eq_foldr, List.foldr_map]
  simp [Nat.add_comm]

/-- A sign is no digit, so a token of digits alone is read without one. -/
theorem parseLiteral_of_digits {ds : List Char} {v : Nat} (h : parseDigits ds = some v) :
    parseLiteral ds = some (v : Int) := by
  obtain ⟨-, hdigits, -⟩ := parseDigits_eq_some_iff.mp h
  unfold parseLiteral
  split
  · exact absurd (hdigits '-' (List.mem_cons_self ..)) (by decide)
  · exact absurd (hdigits '+' (List.mem_cons_self ..)) (by decide)
  · rw [h, Option.map_some]

/-- A token that parses is digits, alone or after one sign (R66). -/
theorem digits_of_parseLiteral {t : List Char} {z : Int} (h : parseLiteral t = some z) :
    ∃ ds v, parseDigits ds = some v ∧ (t = ds ∨ t = '+' :: ds ∨ t = '-' :: ds) := by
  unfold parseLiteral at h
  split at h
  all_goals obtain ⟨v, hv, -⟩ := Option.map_eq_some_iff.mp h
  · exact ⟨_, v, hv, .inr (.inr rfl)⟩
  · exact ⟨_, v, hv, .inr (.inl rfl)⟩
  · exact ⟨_, v, hv, .inl rfl⟩

/-! ## The encode phase -/

/-- The bytes of a named instruction are those of the word ENCODE makes (R90). -/
theorem encode_instrNamed (name : OpName) (b : Nat) :
    encode (instrNamed name b) =
      [byteOf ((opcodeOf name).toNat + 16 * b) 0, byteOf ((opcodeOf name).toNat + 16 * b) 1,
        byteOf ((opcodeOf name).toNat + 16 * b) 2] := by
  have hopcode : (instrNamed name b).opcode = (opcodeOf name).toNat := by cases name <;> rfl
  have hlt : (opcodeOf name).toNat < 16 := (opcodeOf name).isLt
  simp only [encode, instrNamed_operand, hopcode, wordOf_eq hlt]

/-- A number in the range of operands is encoded as the instruction of its name (R104). -/
theorem encodeSource_of_in_range {i : SourceInstr} (h : 0 ≤ i.operand ∧ i.operand ≤ 32767) :
    encodeSource i = .ok (encode (instrNamed i.name i.operand.toNat)) := by
  have hopcode : (opcodeOf i.name).toNat < 16 := (opcodeOf i.name).isLt
  refine encodeSource_eq_ok.mpr ⟨_, _, _, Codec.encode_eq_ok.mpr ⟨by omega, h, rfl⟩, ?_⟩
  rw [encode_instrNamed, Int.toNat_natCast]

/-- Any other number is a RangeError of its operand, with its line (R91, R150). -/
theorem encodeSource_of_out_of_range {i : SourceInstr} (h : i.operand < 0 ∨ 32767 < i.operand) :
    encodeSource i = .error ⟨i.line, .range ⟨false, true⟩⟩ := by
  have hopcode : (opcodeOf i.name).toNat < 16 := (opcodeOf i.name).isLt
  have hA : ¬((opcodeOf i.name).toNat : Int) < 0 ∧ ¬15 < ((opcodeOf i.name).toNat : Int) := by omega
  rw [encodeSource, Codec.encode_of_out_of_range (.inr (by omega))]
  simp only [hA, h, or_self, decide_false, decide_true]

/-- Settles O53: the three forms of a literal, the second check of a line, and the range test of ENCODE. -/
theorem integerLiteralGrammar : Obligations.IntegerLiteralGrammar := by
  refine ⟨fun ds hne hdigits => ?_, fun t z h => ?_, fun _ _ _ _ => parseLine_of_badLiteral,
    fun i hi => encodeSource_of_out_of_range (.inl hi)⟩
  · have hds := parseDigits_eq_some_iff.mpr ⟨hne, hdigits, ofDigitChars_eq_ofDigits ds⟩
    refine ⟨parseLiteral_of_digits hds, ?_, ?_⟩ <;> simp [parseLiteral, hds]
  · obtain ⟨ds, v, hds, ht⟩ := digits_of_parseLiteral h
    obtain ⟨hne, hdigits, -⟩ := parseDigits_eq_some_iff.mp hds
    exact ⟨ds, hne, hdigits, ht⟩

/-! ## Lines in order -/

variable {n : Nat} {line : List Char} {lines : List (List Char)} {e : AsmReport}

/-- A line that fails ends the parse with its error (R73). -/
theorem parseLines_of_error (h : parseLine n line = .error e) (lines : List (List Char)) :
    parseLines n (line :: lines) = .error e := by
  rw [parseLines, h]

/-- A skipped line still counts (R64). -/
theorem parseLines_of_skipped_line (h : parseLine n line = .ok none) (lines : List (List Char)) :
    parseLines n (line :: lines) = parseLines (n + 1) lines := by
  rw [parseLines, h]

/-- Where a line parses, an error of the lines after it is that of the whole (R73). -/
theorem parseLines_of_later_error {r : Option SourceInstr} (hline : parseLine n line = .ok r)
    (h : parseLines (n + 1) lines = .error e) : parseLines n (line :: lines) = .error e := by
  rw [parseLines, hline]
  cases r with
  | none => exact h
  | some i => rw [h]; rfl

/-- The first failing line ends the parse (R73). -/
theorem parseLines_of_first_error {before : List (List Char)}
    (hbefore : ∀ k l, before[k]? = some l → ∃ r, parseLine (k + n) l = .ok r)
    (h : parseLine (before.length + n) line = .error e) (after : List (List Char)) :
    parseLines n (before ++ line :: after) = .error e := by
  induction before generalizing n with
  | nil => exact parseLines_of_error (by simpa using h) after
  | cons l before ih =>
    obtain ⟨r, hr⟩ := hbefore 0 l rfl
    rw [Nat.zero_add] at hr
    refine parseLines_of_later_error hr (ih (fun k l' hk => ?_) ?_)
    · obtain ⟨r', hr'⟩ := hbefore (k + 1) l' hk
      exact ⟨r', by rwa [Nat.add_right_comm] at hr'⟩
    · rwa [List.length_cons, Nat.add_right_comm] at h

/-- Settles O54: the checks of a line one by one, and the first failing line. -/
theorem lineCheckOrder : Obligations.LineCheckOrder := by
  refine ⟨fun n line hne => ⟨parseLine_of_tokenCount hne, fun c a htokens => ⟨parseLine_of_badLiteral htokens,
    fun z => parseLine_of_unknownCommand htokens, fun z name => parseLine_of_instruction htokens⟩⟩,
    fun before after line e hbefore h => parseLines_of_first_error hbefore h after⟩

/-- Settles O55: what is stripped from a line does not reach its parse. -/
theorem commentsAndBlanksAreSkipped : Obligations.CommentsAndBlanksAreSkipped := by
  refine ⟨fun n line comment => parseLine_congr (prepare_comment line comment), fun n blanks h => ?_,
    fun n front line back hfront hback hline => parseLine_congr (prepare_append hfront hback hline),
    fun n line lines h => parseLines_of_skipped_line h lines⟩
  have hprepare : prepare (blanks ++ [] ++ []) = prepare [] := prepare_append h (by simp) (by simp)
  rw [List.append_nil, List.append_nil] at hprepare
  exact parseLine_of_blank hprepare

/-! ## The two phases -/

/-- A failing line is a SyntaxError or an UnknownCommandError (R68). -/
theorem parseLine_error_kind (h : parseLine n line = .error e) :
    asmErrorKind e.error ∈ [ErrorKind.syntaxError, .unknownCommandError] := by
  by_cases hblank : prepare line = []
  · rw [parseLine_of_blank hblank] at h
    cases h
  by_cases hlen : (tokens (prepare line)).length = 2
  · obtain ⟨command, argument, htokens⟩ := List.length_eq_two.mp hlen
    cases hz : parseLiteral argument with
    | none =>
      rw [parseLine_of_badLiteral htokens hz] at h
      cases h
      simp [asmErrorKind]
    | some z =>
      cases hname : lookupCommand command with
      | none =>
        rw [parseLine_of_unknownCommand htokens hz hname] at h
        cases h
        simp [asmErrorKind]
      | some name =>
        rw [parseLine_of_instruction htokens hz hname] at h
        cases h
  · rw [parseLine_of_tokenCount hblank hlen] at h
    cases h
    simp [asmErrorKind]

/-- So is the error of a parse, which is that of a line (R68). -/
theorem parseLines_error_kind (h : parseLines n lines = .error e) :
    asmErrorKind e.error ∈ [ErrorKind.syntaxError, .unknownCommandError] := by
  induction lines generalizing n with
  | nil => cases h
  | cons line lines ih =>
    cases hline : parseLine n line with
    | error e' =>
      rw [parseLines_of_error hline, Except.error.injEq] at h
      exact h ▸ parseLine_error_kind hline
    | ok r =>
      cases hlines : parseLines (n + 1) lines with
      | error e' =>
        rw [parseLines_of_later_error hline hlines, Except.error.injEq] at h
        exact ih (h ▸ hlines)
      | ok rest =>
        rw [parseLines_cons_eq_ok.mpr ⟨r, rest, hline, hlines, rfl⟩] at h
        cases h

/-- Instructions with operands in range are all encoded (R69). -/
theorem encodeSources_of_in_range {is : List SourceInstr} (h : ∀ i ∈ is, 0 ≤ i.operand ∧ i.operand ≤ 32767) :
    encodeSources is = .ok (is.flatMap fun i => encode (instrNamed i.name i.operand.toNat)) := by
  induction is with
  | nil => rfl
  | cons i is ih =>
    obtain ⟨hi, his⟩ := List.forall_mem_cons.mp h
    exact encodeSources_cons_eq_ok.mpr ⟨_, _, encodeSource_of_in_range hi, ih his, rfl⟩

/-- The first instruction with an operand out of range ends the encode phase (R68). -/
theorem encodeSources_of_first_error {before after : List SourceInstr} {i : SourceInstr}
    (hbefore : ∀ j ∈ before, 0 ≤ j.operand ∧ j.operand ≤ 32767) (hi : i.operand < 0 ∨ 32767 < i.operand) :
    encodeSources (before ++ i :: after) = .error ⟨i.line, .range ⟨false, true⟩⟩ := by
  induction before with
  | nil => rw [List.nil_append, encodeSources, encodeSource_of_out_of_range hi]
  | cons j before ih =>
    obtain ⟨hj, hbefore⟩ := List.forall_mem_cons.mp hbefore
    rw [List.cons_append, encodeSources, encodeSource_of_in_range hj, ih hbefore]
    rfl

/-- An error of the parse is that of the assembly (R68). -/
theorem assemble_of_parse_error {text : List Char} (h : parseText text = .error e) : assemble text = .error e := by
  rw [assemble, h]

/-- After the parse, an error of the encode phase is that of the assembly (R68). -/
theorem assemble_of_encode_error {text : List Char} {is : List SourceInstr} (h : parseText text = .ok is)
    (henc : encodeSources is = .error e) : assemble text = .error e := by
  simp only [assemble, h, henc, Except.map]

/-- Settles O56: the error of the parse by its kind, and the encode phase up to its first error. -/
theorem parsingPrecedesEncoding : Obligations.ParsingPrecedesEncoding := by
  refine fun text => ⟨fun e h => ⟨assemble_of_parse_error h, parseLines_error_kind h⟩, fun is h => ⟨fun hall => ?_, ?_⟩⟩
  · exact ⟨_, assemble_eq_ok.mpr ⟨is, h, encodeSources_of_in_range hall, rfl⟩⟩
  · rintro before i after rfl hbefore hi
    exact assemble_of_encode_error h (encodeSources_of_first_error hbefore hi)

/-! ## The stages of the errors -/

/-- The kind with a given code of R150; above 6, the last one. -/
def errorKindOfCode : Nat → ErrorKind
  | 1 => .rangeError
  | 2 => .formatError
  | 3 => .unknownOpcodeError
  | 4 => .stackUnderflowError
  | 5 => .addressRangeError
  | 6 => .syntaxError
  | _ => .unknownCommandError

theorem errorKindOfCode_errorCode : Function.LeftInverse errorKindOfCode errorCode := by
  intro k
  cases k <;> rfl

/-- Settles O50: the stage of each error by its kind, and a code determines its kind. -/
theorem errorStagesAreSeparate : Obligations.ErrorStagesAreSeparate := by
  refine ⟨fun e => ?_, fun e => ?_, fun k k' h => errorKindOfCode_errorCode.injective h,
    rfl, rfl, rfl, rfl, rfl, rfl, rfl⟩
  · cases e with
    | codec c => cases c <;> rfl
    | stackUnderflow | addressRange => rfl
  · cases e <;> rfl

end Sys2Proof.Machine
end

section
/-! Assembled programs: the disassembly spelling assembles back (spec/30_encoding.md R74), and a run of an assembled image
executes its list (R69, spec/40_codec_operations.md R105). -/

namespace Sys2Proof.Machine

/-! ## The disassembly spelling -/

/-- The four spellings are commands that can stand on a line. -/
theorem isPlain_spelling (name : OpName) : IsPlain (spelling name) ∧ '\n' ∉ spelling name := by
  cases name <;> simp [IsPlain, spelling, isBlank]

theorem digits_of_toDigits (b : Nat) : ∀ c ∈ Nat.toDigits 10 b, '0' ≤ c ∧ c ≤ '9' := by
  intro c hc
  have hdigit := Nat.isDigit_of_mem_toDigits (by decide) (by decide) hc
  simpa [Char.isDigit, Char.le_def] using hdigit

/-- The decimal digits of a number are read back as that number (R66). -/
theorem parseLiteral_toDigits (b : Nat) : parseLiteral (Nat.toDigits 10 b) = some (b : Int) :=
  parseLiteral_of_digits (parseDigits_eq_some_iff.mpr
    ⟨Nat.toDigits_ne_nil, digits_of_toDigits b, Nat.ofDigitChars_ten_toDigits⟩)

/-- A digit is neither whitespace nor `#` nor a line feed. -/
theorem digit_isPlain {c : Char} (h : '0' ≤ c ∧ c ≤ '9') : (isBlank c = false ∧ c ≠ '#') ∧ c ≠ '\n' := by
  have hne : ∀ d : Char, ¬('0' ≤ d ∧ d ≤ '9') → c ≠ d := fun d hd hcd => hd (hcd ▸ h)
  refine ⟨⟨?_, hne '#' (by decide)⟩, hne '\n' (by decide)⟩
  rw [Bool.eq_false_iff, Ne, isBlank_iff]
  rintro (rfl | rfl | rfl) <;> exact absurd h (by decide)

theorem isPlain_toDigits (b : Nat) : IsPlain (Nat.toDigits 10 b) :=
  ⟨Nat.toDigits_ne_nil, fun c hc => (digit_isPlain (digits_of_toDigits b c hc)).1⟩

/-- A spelling is one line. -/
theorem no_newline_disassembleNamed (name : OpName) (b : Nat) : '\n' ∉ disassembleNamed name b := by
  simp only [disassembleNamed, List.mem_append, List.mem_cons, not_or]
  exact ⟨(isPlain_spelling name).2, by decide, fun h => (digit_isPlain (digits_of_toDigits b _ h)).2 rfl⟩

/-- The spelling of an instruction parses as that instruction (R74). -/
theorem parseLine_disassembleNamed (n : Nat) (name : OpName) (b : Nat) :
    parseLine n (disassembleNamed name b) = .ok (some ⟨n, name, b⟩) :=
  parseLine_of_instruction (tokens_prepare_spaced (isPlain_spelling name).1 (isPlain_toDigits b))
    (parseLiteral_toDigits b) (lookupCommand_eq_some_iff.mpr rfl)

/-- The elements of the list that a program written one spelling a line gives, numbered from `n`. -/
def sourceOf : Nat → List (OpName × Nat) → List SourceInstr
  | _, [] => []
  | n, p :: program => ⟨n, p.1, p.2⟩ :: sourceOf (n + 1) program

/-- The spellings of a program parse as its elements (R68, R74). -/
theorem parseLines_disassembled (n : Nat) (program : List (OpName × Nat)) :
    parseLines n (program.map fun p => disassembleNamed p.1 p.2) = .ok (sourceOf n program) := by
  induction program generalizing n with
  | nil => rfl
  | cons p program ih =>
    exact parseLines_cons_eq_ok.mpr ⟨_, _, parseLine_disassembleNamed n p.1 p.2, ih (n + 1), rfl⟩

theorem map_sourceOf (n : Nat) (program : List (OpName × Nat)) :
    ((sourceOf n program).map fun i => (i.name, i.operand)) = program.map fun p => (p.1, (p.2 : Int)) := by
  induction program generalizing n with
  | nil => rfl
  | cons p program ih => exact congrArg _ (ih (n + 1))

/-- The elements of a canonical program are encoded as its image (R58, R69). -/
theorem encodeSources_sourceOf {program : List (OpName × Nat)} (h : ∀ p ∈ program, p.2 ≤ 32767) (n : Nat) :
    encodeSources (sourceOf n program) = .ok (programImage program) := by
  induction program generalizing n with
  | nil => rfl
  | cons p program ih =>
    obtain ⟨hp, hprogram⟩ := List.forall_mem_cons.mp h
    have hrange : (0 : Int) ≤ p.2 ∧ (p.2 : Int) ≤ 32767 := by omega
    exact encodeSources_cons_eq_ok.mpr
      ⟨_, _, encodeSource_of_in_range (i := ⟨n, p.1, p.2⟩) hrange, ih hprogram (n + 1), rfl⟩

/-- Settles O59: the lines of the text are the spellings, which parse as the program, and the program is encoded. -/
theorem disassembledProgramsAssembleBack : Obligations.DisassembledProgramsAssembleBack := by
  intro program hcanonical
  refine assemble_eq_ok.mpr ⟨sourceOf 1 program, ?_, encodeSources_sourceOf hcanonical 1, (map_sourceOf 1 program).symm⟩
  have hlines : ∀ l ∈ program.map fun p => disassembleNamed p.1 p.2, '\n' ∉ l := by
    simp only [List.mem_map, forall_exists_index, and_imp]
    rintro l p - rfl
    exact no_newline_disassembleNamed p.1 p.2
  have hsplit := splitLines_lines hlines []
  rw [List.flatMap_map, List.append_nil, splitLines, List.append_nil] at hsplit
  rw [parseText, hsplit, parseLines_disassembled]

/-- Settles O60: the text is one line, which parses as the instruction, whose operand ENCODE refuses. -/
theorem nonCanonicalSpellingIsRejected : Obligations.NonCanonicalSpellingIsRejected := by
  refine ⟨fun i text hoperand h => ?_, fun i => Option.map_eq_none_iff⟩
  obtain ⟨name, -, rfl⟩ := Option.map_eq_some_iff.mp h
  have hsplit : splitLines (disassembleNamed name i.operand) = [disassembleNamed name i.operand] :=
    splitLines_last (by simp [disassembleNamed]) (no_newline_disassembleNamed name i.operand)
  have hparse : parseText (disassembleNamed name i.operand) = .ok (sourceOf 1 [(name, i.operand)]) := by
    rw [parseText, hsplit]
    exact parseLines_disassembled 1 [(name, i.operand)]
  have hout : (i.operand : Int) < 0 ∨ 32767 < (i.operand : Int) := by omega
  exact assemble_of_encode_error hparse
    (encodeSources_of_first_error (before := []) (i := ⟨1, name, i.operand⟩) (by simp) hout)

/-! ## Runs of an assembled image -/

section Assembled

variable {text : List Char} {image : List Byte} {list : List (OpName × Int)} (h : assemble text = .ok (image, list))
include h

/-- Slot `k` of an assembled image decodes to element `k` of the list, whose operand is in range (R58, R69, R98). -/
theorem decode_slot_of_assemble {k : Nat} {name : OpName} {operand : Int} (hk : list[k]? = some (name, operand)) :
    decode (slot image k) = .ok (instrNamed name operand.toNat) ∧ 0 ≤ operand ∧ operand ≤ 32767 := by
  obtain ⟨is, -, henc, rfl⟩ := assemble_eq_ok.mp h
  obtain ⟨i, hi, ⟨⟩⟩ := Option.map_eq_some_iff.mp (List.getElem?_map.symm.trans hk)
  have hslot := slot_of_encodeSources henc hi
  by_cases hrange : 0 ≤ i.operand ∧ i.operand ≤ 32767
  · rw [encodeSource_of_in_range hrange, Except.ok.injEq] at hslot
    refine ⟨hslot ▸ decodeOfEncodedInstruction _ ?_, hrange⟩
    rw [Instr.WellFormed, instrNamed_operand]
    omega
  · rw [encodeSource_of_out_of_range (by omega)] at hslot
    cases hslot

/-- The image has a slot for each element (R47, R69). -/
theorem instructionCount_of_assemble : instructionCount image = list.length :=
  (assembledImageFollowsTheList.1 text image list h).2.1

/-- No step of an assembled image fails to decode: every slot before the end holds a named instruction (R105). -/
theorem step_error_ne_codec {s t : State} (himage : s.image = image) (hstep : step s = .next t)
    (ht : t.status = .haltedError) (c : CodecError) (k : Nat) : t.error ≠ some ⟨.codec c, k⟩ := by
  intro herror
  obtain ⟨hip, e, u, hfails, rfl⟩ := slotFails_of_step hstep ht
  obtain ⟨rfl, -⟩ : e = .codec c ∧ u.ip = k := by simpa using herror
  cases hfails with
  | undecoded hdecode =>
    rw [himage, instructionCount_of_assemble h] at hip
    obtain ⟨hok, -⟩ := decode_slot_of_assemble h (List.getElem?_eq_getElem hip)
    obtain ⟨x, hx, -⟩ := codecDecode_of_decode (himage ▸ hok : decode s.fetch = _)
    cases hx.symm.trans hdecode

end Assembled

/-- Settles O58: every slot of the image decodes to its element, so a step executes it, in a run as in any other state. -/
theorem assembledProgramsNeverFailToDecode : Obligations.AssembledProgramsNeverFailToDecode := by
  intro text image list h
  have hcount : ∀ {k : Nat} {x : OpName × Int}, list[k]? = some x → k < instructionCount image := by
    intro k x hk
    rw [instructionCount_of_assemble h]
    exact (List.getElem?_eq_some_iff.mp hk).1
  refine ⟨fun k name operand => decode_slot_of_assemble h, ?_, fun s t c k himage hstep ht =>
    step_error_ne_codec h himage hstep ht c k, fun size mem0 => ⟨fun k name operand hk hlist => ?_, fun c k herror => ?_⟩⟩
  · rintro s name operand rfl hrun hlist
    exact step_of_decode_ok hrun (hcount hlist) (decode_slot_of_assemble h hlist).1
  · exact step_runFor_start_of_decode image size mem0 hk (hcount hlist) (decode_slot_of_assemble h hlist).1
  · have hlast := step_runFor_start image size mem0 le_rfl
    rw [runFor_start_final_ip] at hlast
    obtain ⟨-, -, hnone⟩ | ⟨hhalted, -⟩ := run_end_cases image size mem0
    · cases hnone.symm.trans herror
    · exact step_error_ne_codec h (runFor_image ..) hlast hhalted c k herror

end Sys2Proof.Machine
end
